-- ==== Sys2Proof/Word.lean ====
section
/-! DEFINITION. The machine's one data type and the slicing of a number into decimal digits.

`WORD` (R6, R7 of spec/00_scope.md, decision D1) is the mathematical integers: every memory word, operand, `pc`, `rb`,
input value and output value is an `Int`. No rule slices a word into bits, so none is a bit vector. An address that has
passed the sign check is a `Nat`. -/

namespace Sys2Proof

/-- `digit_k(w)` (R7): the `k`-th decimal digit of a word `w >= 0`, the units digit first. -/
def digit (k w : Nat) : Nat := w / 10 ^ k % 10

end Sys2Proof
end

