-- ==== Sys2Proof/Config.lean ====
section
/-! DEFINITION. What an implementation fixes: the two parameters the spec leaves OPEN. There is no free value: the
spec leaves no result of any instruction open (spec/93_implementation_defined.md, part 1). -/

namespace Sys2Proof

/-- The OPEN parameters of R6 (spec/00_scope.md), which "the model takes as an argument". The machine carries them in
its state, no step changes them, and every statement about a state holds for every value of them. DESIGN CHOICE, safe
(log entry 3). -/
structure Params where
  /-- `WORD_BITS` (D1): none is the default, unbounded integers; `some w` is a `w`-bit two's complement word (R114). -/
  wordBits : Option Nat
  /-- `MAX_ADDR` (D2): none is the default, every address `>= 0` is usable; `some m` makes `m` the last usable one. -/
  maxAddr : Option Nat
  deriving DecidableEq, Repr

/-- The defaults the spec takes for both (R6, D1, D2). -/
def Params.default : Params := { wordBits := none, maxAddr := none }

/-- The values the spec allows (R6, D1): a finite `WORD_BITS` "must be at least 64". -/
abbrev Params.legal (p : Params) : Prop := ∀ w ∈ p.wordBits, 64 ≤ w

end Sys2Proof
end

