-- ==== Sys2Proof/Machine/Flags.lean ====
section
/-! DEFINITION. The conditions the machine tests. It has no flags and no condition codes (R26 of spec/10_state.md): a
comparison's 0 or 1 is an ordinary word, and the only conditions outside the ALU are the range test of a finite
`WORD_BITS` (R114) and the limit of a finite `MAX_ADDR` (D2). -/

namespace Sys2Proof.Machine

/-- Is `v` representable? Always, by default; with `WORD_BITS = w`, within the two's complement range of `w` bits
(R114 of spec/40_execution_cycle.md). -/
def wordFits (p : Params) (v : Int) : Bool :=
  match p.wordBits with
  | none => true
  | some w => decide (-(2 : Int) ^ (w - 1) ≤ v) && decide (v < (2 : Int) ^ (w - 1))

/-- Is the non-negative address `a` within the storage the implementation has? Always, by default (R45, D2). -/
def addrAdmitted (p : Params) (a : Nat) : Bool :=
  match p.maxAddr with
  | none => true
  | some m => decide (a ≤ m)

end Sys2Proof.Machine
end

