-- ==== Sys2Proof/Syntax.lean ====
section
/-! DEFINITION. The instructions: one constructor for each row of spec/opcode_table.json (R74). -/

namespace Sys2Proof

/-- The mode of a read operand (R11, R103): digit 0, 1 or 2 in this order. -/
inductive Mode where
  | position
  | immediate
  | relative
  deriving DecidableEq, Repr

/-- The two modes that have an effective address (R47), hence the two legal modes of a write destination (R79, R104).
A destination in immediate mode is no instruction: the decoder rejects it (R79), so it cannot be written here. -/
inductive AddrMode where
  | position
  | relative
  deriving DecidableEq, Repr

/-- A read operand: its mode digit and its raw operand word (R81, R103). -/
structure Operand where
  mode : Mode
  raw : Int
  deriving DecidableEq, Repr

/-- A write destination: its mode digit and its raw operand word (R81, R104). -/
structure Dest where
  mode : AddrMode
  raw : Int
  deriving DecidableEq, Repr

/-- The ten operations (R74). An Instruction holds "exactly three `modes`": the mode of a slot the operation does not
have is kept as `x1`, `x2`, `x3`; it is decoded and never consulted (R80). -/
inductive Instr where
  /-- opcode 1, R130 -/
  | add (a b : Operand) (dest : Dest)
  /-- opcode 2, R131 -/
  | mul (a b : Operand) (dest : Dest)
  /-- opcode 3, R140 -/
  | input (dest : Dest) (x2 x3 : Mode)
  /-- opcode 4, R141 -/
  | output (a : Operand) (x2 x3 : Mode)
  /-- opcode 5, R150 -/
  | jumpIfTrue (a target : Operand) (x3 : Mode)
  /-- opcode 6, R151 -/
  | jumpIfFalse (a target : Operand) (x3 : Mode)
  /-- opcode 7, R160 -/
  | lessThan (a b : Operand) (dest : Dest)
  /-- opcode 8, R161 -/
  | equals (a b : Operand) (dest : Dest)
  /-- opcode 9, R170 -/
  | adjustBase (a : Operand) (x2 x3 : Mode)
  /-- opcode 99, R180 -/
  | halt (x1 x2 x3 : Mode)
  deriving DecidableEq, Repr

/-- The operation an instruction word selects, without its operands. -/
inductive Opcode where
  | add | mul | input | output | jumpIfTrue | jumpIfFalse | lessThan | equals | adjustBase | halt
  deriving DecidableEq, Repr

/-- The operation of an instruction. -/
def Instr.op : Instr → Opcode
  | .add _ _ _ => .add
  | .mul _ _ _ => .mul
  | .input _ _ _ => .input
  | .output _ _ _ => .output
  | .jumpIfTrue _ _ _ => .jumpIfTrue
  | .jumpIfFalse _ _ _ => .jumpIfFalse
  | .lessThan _ _ _ => .lessThan
  | .equals _ _ _ => .equals
  | .adjustBase _ _ _ => .adjustBase
  | .halt _ _ _ => .halt

end Sys2Proof
end

