-- ==== Sys2Proof/WellFormed.lean ====
section
/-! DEFINITION. The check on an instruction that its type does not already make. Modes are legal by type (R78, R79);
what is left is that each operand word is a WORD of the implementation, which only a finite `WORD_BITS` restricts. -/

namespace Sys2Proof

/-- The operand words of an instruction, in slot order (R70, R81). -/
def Instr.operandWords : Instr → List Int
  | .add a b d => [a.raw, b.raw, d.raw]
  | .mul a b d => [a.raw, b.raw, d.raw]
  | .input d _ _ => [d.raw]
  | .output a _ _ => [a.raw]
  | .jumpIfTrue a t _ => [a.raw, t.raw]
  | .jumpIfFalse a t _ => [a.raw, t.raw]
  | .lessThan a b d => [a.raw, b.raw, d.raw]
  | .equals a b d => [a.raw, b.raw, d.raw]
  | .adjustBase a _ _ => [a.raw]
  | .halt _ _ _ => []

/-- Every operand word is representable (R81: an operand is one whole WORD; R114 for a finite width). With the default
parameters every instruction is well-formed. -/
def Instr.wellFormed (p : Params) (i : Instr) : Bool :=
  i.operandWords.all (fun w => Machine.wordFits p w)

end Sys2Proof
end

