-- ==== Sys2Proof/Decode.lean ====
section
/-! DEFINITION. The decoder (R70 to R82 of spec/30_encoding.md) and, after it, the encoder. An instruction word is
sliced into decimal digits (R71); operand words are whole words (R81). -/

namespace Sys2Proof

/-- What an operand slot of an operation is (R74). -/
inductive SlotRole where
  | read
  | write
  | absent
  deriving DecidableEq, Repr

/-- One row of the opcode map (R74): the control information the decoder has from the opcode alone. -/
structure OpcodeRow where
  op : Opcode
  /-- the value of `iw mod 100` that selects the row -/
  code : Nat
  /-- the instruction's length in words -/
  length : Nat
  slot1 : SlotRole
  slot2 : SlotRole
  slot3 : SlotRole
  deriving DecidableEq, Repr

/-- The opcode map (R74), by operation. -/
def Opcode.row : Opcode → OpcodeRow
  | .add => ⟨.add, 1, 4, .read, .read, .write⟩
  | .mul => ⟨.mul, 2, 4, .read, .read, .write⟩
  | .input => ⟨.input, 3, 2, .write, .absent, .absent⟩
  | .output => ⟨.output, 4, 2, .read, .absent, .absent⟩
  | .jumpIfTrue => ⟨.jumpIfTrue, 5, 3, .read, .read, .absent⟩
  | .jumpIfFalse => ⟨.jumpIfFalse, 6, 3, .read, .read, .absent⟩
  | .lessThan => ⟨.lessThan, 7, 4, .read, .read, .write⟩
  | .equals => ⟨.equals, 8, 4, .read, .read, .write⟩
  | .adjustBase => ⟨.adjustBase, 9, 2, .read, .absent, .absent⟩
  | .halt => ⟨.halt, 99, 1, .absent, .absent, .absent⟩

/-- The ten rows, in the table's order. -/
def opcodeTable : List OpcodeRow :=
  [Opcode.add.row, Opcode.mul.row, Opcode.input.row, Opcode.output.row, Opcode.jumpIfTrue.row,
    Opcode.jumpIfFalse.row, Opcode.lessThan.row, Opcode.equals.row, Opcode.adjustBase.row, Opcode.halt.row]

/-- The row that `iw mod 100` selects, if any (R75: the other ninety values select none). -/
def findRow (code : Nat) : Option OpcodeRow :=
  opcodeTable.find? (fun r => r.code == code)

/-- The fields of a non-negative instruction word (R71). -/
structure Fields where
  opcode : Nat
  m1 : Nat
  m2 : Nat
  m3 : Nat
  deriving DecidableEq, Repr

/-- `Decode(w)` for `w >= 0` (R72): the opcode is `w mod 100`, the modes are taken from `w div 100` one digit at a
time, and what is left after three is discarded (R77). -/
def decodeFields (w : Nat) : Fields :=
  let r := w / 100
  let r' := r / 10
  let r'' := r' / 10
  { opcode := w % 100, m1 := r % 10, m2 := r' % 10, m3 := r'' % 10 }

/-- Why an instruction word is rejected. The step turns each into the fault the spec names (R75, R76, R78, R79). -/
inductive WordError where
  /-- the instruction word is negative (R76, decision D5) -/
  | negativeWord
  /-- `iw mod 100` selects no operation (R75) -/
  | unknownOpcode (opcode : Nat)
  /-- the mode of this slot is above 2 (R78, decision D6), or is 1 on the write destination (R79, decision D7) -/
  | invalidMode (slot : Nat)
  deriving DecidableEq, Repr

/-- Why a list of words does not begin with an instruction. -/
inductive DecodeError where
  /-- its first word is rejected -/
  | badWord (e : WordError)
  /-- it ends inside an instruction; memory never ends (R43, R102), so no step meets this -/
  | truncated
  deriving DecidableEq, Repr

/-- The mode a digit stands for, "each 0, 1, or 2" (R78). -/
def modeOfDigit : Nat → Option Mode
  | 0 => some .position
  | 1 => some .immediate
  | 2 => some .relative
  | _ => none

/-- The mode of a write destination, which may not be immediate (R79). -/
def addrModeOf : Mode → Option AddrMode
  | .position => some .position
  | .immediate => none
  | .relative => some .relative

/-- The three modes of a word, the lowest slot with a digit above 2 reported (R78). -/
def decodeModes (f : Fields) : Except WordError (Mode × Mode × Mode) :=
  match modeOfDigit f.m1, modeOfDigit f.m2, modeOfDigit f.m3 with
  | none, _, _ => .error (.invalidMode 1)
  | some _, none, _ => .error (.invalidMode 2)
  | some _, some _, none => .error (.invalidMode 3)
  | some m1, some m2, some m3 => .ok (m1, m2, m3)

/-- An instruction with a write destination in this slot, or the rejection of an immediate destination (R79). -/
def withDestMode (slot : Nat) (m : Mode) (mk : AddrMode → Instr) : Except WordError Instr :=
  match addrModeOf m with
  | some d => .ok (mk d)
  | none => .error (.invalidMode slot)

/-- The instruction of an operation and three modes, its operand words still 0 (R74). -/
def assemble (op : Opcode) (m1 m2 m3 : Mode) : Except WordError Instr :=
  match op with
  | .add => withDestMode 3 m3 (fun d => .add ⟨m1, 0⟩ ⟨m2, 0⟩ ⟨d, 0⟩)
  | .mul => withDestMode 3 m3 (fun d => .mul ⟨m1, 0⟩ ⟨m2, 0⟩ ⟨d, 0⟩)
  | .input => withDestMode 1 m1 (fun d => .input ⟨d, 0⟩ m2 m3)
  | .output => .ok (.output ⟨m1, 0⟩ m2 m3)
  | .jumpIfTrue => .ok (.jumpIfTrue ⟨m1, 0⟩ ⟨m2, 0⟩ m3)
  | .jumpIfFalse => .ok (.jumpIfFalse ⟨m1, 0⟩ ⟨m2, 0⟩ m3)
  | .lessThan => withDestMode 3 m3 (fun d => .lessThan ⟨m1, 0⟩ ⟨m2, 0⟩ ⟨d, 0⟩)
  | .equals => withDestMode 3 m3 (fun d => .equals ⟨m1, 0⟩ ⟨m2, 0⟩ ⟨d, 0⟩)
  | .adjustBase => .ok (.adjustBase ⟨m1, 0⟩ m2 m3)
  | .halt => .ok (.halt m1 m2 m3)

/-- Phases 2 to 5 of a step (R100): what the instruction word alone says, with the operand words still 0. The order of
the checks is the spec's (R228): sign, opcode, mode digits lowest slot first, immediate destination. -/
def decodeWord (iw : Int) : Except WordError Instr :=
  if iw < 0 then .error .negativeWord
  else
    let f := decodeFields iw.toNat
    match findRow f.opcode with
    | none => .error (.unknownOpcode f.opcode)
    | some row =>
      match decodeModes f with
      | .error e => .error e
      | .ok (m1, m2, m3) => assemble row.op m1 m2 m3

/-- How many operand words follow the instruction word (R70, R82). -/
def Instr.operandCount (i : Instr) : Nat := i.op.row.length - 1

/-- An instruction with its operand words put in (R81): slot `k` takes the `k`-th word. -/
def Instr.withOperands (i : Instr) (w1 w2 w3 : Int) : Instr :=
  match i with
  | .add a b d => .add ⟨a.mode, w1⟩ ⟨b.mode, w2⟩ ⟨d.mode, w3⟩
  | .mul a b d => .mul ⟨a.mode, w1⟩ ⟨b.mode, w2⟩ ⟨d.mode, w3⟩
  | .input d x2 x3 => .input ⟨d.mode, w1⟩ x2 x3
  | .output a x2 x3 => .output ⟨a.mode, w1⟩ x2 x3
  | .jumpIfTrue a t x3 => .jumpIfTrue ⟨a.mode, w1⟩ ⟨t.mode, w2⟩ x3
  | .jumpIfFalse a t x3 => .jumpIfFalse ⟨a.mode, w1⟩ ⟨t.mode, w2⟩ x3
  | .lessThan a b d => .lessThan ⟨a.mode, w1⟩ ⟨b.mode, w2⟩ ⟨d.mode, w3⟩
  | .equals a b d => .equals ⟨a.mode, w1⟩ ⟨b.mode, w2⟩ ⟨d.mode, w3⟩
  | .adjustBase a x2 x3 => .adjustBase ⟨a.mode, w1⟩ x2 x3
  | .halt x1 x2 x3 => .halt x1 x2 x3

/-- An instruction with the first words of a list as its operand words; `Instr.withOperands` uses only the slots the
operation has. -/
def Instr.withOperandList (i : Instr) (ws : List Int) : Instr :=
  i.withOperands (ws.getD 0 0) (ws.getD 1 0) (ws.getD 2 0)

/-- The decoder on a list of words: the instruction at its head and the words after it (R70, R82), or a rejection by
name. -/
def decode : List Int → Except DecodeError (Instr × List Int)
  | [] => .error .truncated
  | iw :: rest =>
    match decodeWord iw with
    | .error e => .error (.badWord e)
    | .ok i =>
      if rest.length < i.operandCount then .error .truncated
      else .ok (i.withOperandList rest, rest.drop i.operandCount)

/-- The instruction that an opcode-table word stands for: the instruction word is the number `w` holds in its low
`nbits` bits, and every operand word is 0. The machine's words are integers, not bytes, so the table's bits are read as
one number (R87; DESIGN CHOICE, log entry 8). -/
def decodeTableWord (nbits w : Nat) : Option Instr :=
  match decode [((w % 2 ^ nbits : Nat) : Int), 0, 0, 0] with
  | .ok (i, _) => some i
  | .error _ => none

/-! The encoder. -/

/-- `Encode(opcode, m1, m2, m3)` (R73): the canonical word of a set of fields. -/
def encodeFields (f : Fields) : Nat :=
  f.opcode + 100 * f.m1 + 1000 * f.m2 + 10000 * f.m3

/-- The digit of a mode (R11). -/
def modeDigit : Mode → Nat
  | .position => 0
  | .immediate => 1
  | .relative => 2

/-- The digit of a destination's mode (R104). -/
def addrModeDigit : AddrMode → Nat
  | .position => 0
  | .relative => 2

/-- The digits of the three mode positions of an instruction (R71). -/
def Instr.modeDigits : Instr → Nat × Nat × Nat
  | .add a b d => (modeDigit a.mode, modeDigit b.mode, addrModeDigit d.mode)
  | .mul a b d => (modeDigit a.mode, modeDigit b.mode, addrModeDigit d.mode)
  | .input d x2 x3 => (addrModeDigit d.mode, modeDigit x2, modeDigit x3)
  | .output a x2 x3 => (modeDigit a.mode, modeDigit x2, modeDigit x3)
  | .jumpIfTrue a t x3 => (modeDigit a.mode, modeDigit t.mode, modeDigit x3)
  | .jumpIfFalse a t x3 => (modeDigit a.mode, modeDigit t.mode, modeDigit x3)
  | .lessThan a b d => (modeDigit a.mode, modeDigit b.mode, addrModeDigit d.mode)
  | .equals a b d => (modeDigit a.mode, modeDigit b.mode, addrModeDigit d.mode)
  | .adjustBase a x2 x3 => (modeDigit a.mode, modeDigit x2, modeDigit x3)
  | .halt x1 x2 x3 => (modeDigit x1, modeDigit x2, modeDigit x3)

/-- The fields of an instruction's canonical word (R71, R74). -/
def Instr.fields (i : Instr) : Fields :=
  { opcode := i.op.row.code, m1 := i.modeDigits.1, m2 := i.modeDigits.2.1, m3 := i.modeDigits.2.2 }

/-- The canonical instruction word (R73). -/
def encodeWord (i : Instr) : Int := ((encodeFields i.fields : Nat) : Int)

/-- The words of an instruction: its canonical word, then its operand words in slot order (R70). -/
def encode (i : Instr) : List Int := encodeWord i :: i.operandWords

end Sys2Proof
end

