-- ==== Sys2Proof/Machine/Alu.lean ====
section
/-! DEFINITION. The integer ALU (R107 to R114 of spec/40_execution_cycle.md): a stateless function of two words. -/

namespace Sys2Proof.Machine

/-- The function select (R107). `sub` is selected by no opcode (R109, D20). -/
inductive AluFn where
  | add
  | sub
  | mul
  | lt
  | eq
  deriving DecidableEq, Repr

/-- The ALU (R108 to R112), exact on all integers. The comparisons are defined through the difference, as R109 says
(decision D20); that they are the exact comparisons of R111 and R112 is proved in Laws. -/
def alu : AluFn → Int → Int → Int
  | .add, a, b => a + b
  | .sub, a, b => a - b
  | .mul, a, b => a * b
  | .lt, a, b => if a - b < 0 then 1 else 0
  | .eq, a, b => if a - b = 0 then 1 else 0

/-- Does the function raise `ArithmeticOverflow` on these operands (R114)? A sum, a product or a difference does when
it is not representable; a comparison never does. -/
def aluOverflows (p : Params) : AluFn → Int → Int → Bool
  | .add, a, b => !wordFits p (alu .add a b)
  | .sub, a, b => !wordFits p (alu .sub a b)
  | .mul, a, b => !wordFits p (alu .mul a b)
  | .lt, _, _ => false
  | .eq, _, _ => false

end Sys2Proof.Machine
end

