-- ==== Sys2Proof/Machine/State.lean ====
section
/-! DEFINITION. The machine's state as plain data (R20 to R30 of spec/10_state.md), the ways a step can stop, and the
state after reset. -/

namespace Sys2Proof.Machine

/-- The fault kinds, with the information each records (R220, R221). -/
inductive FaultCause where
  /-- code 1: the negative address requested (R222) -/
  | addressError (addr : Int)
  /-- code 2: `iw mod 100`, or the whole word when it is negative, and the position (R223) -/
  | unknownOpcodeError (opcode p : Int)
  /-- code 3: the position of the `input` instruction (R224) -/
  | outOfInputError (p : Int)
  /-- code 4: the instruction word, its position, the offending slot (R225) -/
  | invalidModeError (iw p : Int) (slot : Nat)
  /-- code 5: the position; only with a finite `WORD_BITS` (R226) -/
  | arithmeticOverflow (p : Int)
  /-- no code: an access above a finite `MAX_ADDR`, whose kind D2 leaves to the implementation. DESIGN CHOICE, safe
  (log entry 5); with the default parameters it cannot occur. -/
  | aboveMaxAddr (addr : Int)
  deriving DecidableEq, Repr

/-- `run_state` (R23). -/
inductive RunState where
  | running
  /-- with the halting position (R180) -/
  | halted (p : Int)
  | faulted (cause : FaultCause)
  deriving DecidableEq, Repr

/-- A memory cell: an address and the word it holds. The machine is word-addressed (R40), so the cell is a whole
integer, not a byte (log entry 4). -/
abbrev Cell := Nat × Int

/-- Memory in one canonical form: addresses strictly rising, no cell holding 0, which is what an unlisted address reads
as (R42, R43). It is the view `M` of R42. -/
abbrev Memory := List Cell

/-- The machine (R20), the two channels a program observes (R27, R28), and the OPEN parameters (log entry 3). -/
structure State where
  /-- `mem` (R24, R42) -/
  mem : Memory
  /-- `L`, the number of words loaded (R24, R262); no instruction observes it (R29) -/
  initLen : Nat
  /-- `rb`, the relative base (R22) -/
  rb : Int
  /-- `pc` (R21) -/
  pc : Int
  /-- `run_state` (R23) -/
  runState : RunState
  /-- `in_queue`: the input values not yet consumed, oldest first (R27, R192) -/
  inQueue : List Int
  /-- `out_log`: what the sink has received, oldest first (R28, R193) -/
  outLog : List Int
  /-- `WORD_BITS` and `MAX_ADDR` (R6); no step changes them -/
  params : Params
  deriving DecidableEq, Repr

/-- No step of this machine stops without a next state: the entry of every fault is described by the spec (R229), so a
faulting step answers a next state whose `runState` is `faulted`. Nobody raises a value of this type (safe). -/
inductive Fault where
  deriving DecidableEq, Repr

/-- Why a step or a host operation is refused. -/
inductive Refusal where
  /-- raised by an arm of `exec` that has no meaning yet; no arm of this model raises it (safe) -/
  | notModelled (mnemonic : String)
  /-- raised by `step` and the run operations of the host on a halted machine: "a host call to step such a machine is
  refused and changes nothing" (R100, D15); safe -/
  | machineHalted (p : Int)
  /-- raised by `step` and the run operations of the host on a faulted machine (R100, D15); safe -/
  | machineFaulted (cause : FaultCause)
  /-- raised by the host's retry unless the machine is in `faulted(OutOfInputError, _)` (R190, R199, D14); safe -/
  | retryNotAllowed (r : RunState)
  deriving DecidableEq, Repr

/-- The machine right after the load of the empty program, with no input supplied and the default parameters (R30,
R260, R262; DESIGN CHOICES of log entries 1 and 2). -/
def State.reset : State :=
  { mem := [], initLen := 0, rb := 0, pc := 0, runState := .running, inQueue := [], outLog := [],
    params := Params.default }

end Sys2Proof.Machine
end

