-- ==== Sys2Proof/Machine/Ops.lean ====
section
/-! DEFINITION. The named operations over memory, `pc`, the channels and `run_state`: `MemRead` and `MemWrite`
(R43, R44), the checked sums of a finite width (R114), instruction fetch (R101, R102), `InPoll` and `OutPush`
(R192, R193), fault entry (R229) and what leads out of it inside this block (R199, R230). -/

namespace Sys2Proof.Machine

/-! Memory as data. -/

/-- The view `M` (R42): an address that is not listed reads 0. -/
def Memory.read (m : Memory) (a : Nat) : Int :=
  match m with
  | [] => 0
  | (k, v) :: rest => if k = a then v else Memory.read rest a

/-- Put `v` at `a` (R44), keeping the addresses rising and listing no 0. -/
def Memory.write (m : Memory) (a : Nat) (v : Int) : Memory :=
  match m with
  | [] => if v = 0 then [] else [(a, v)]
  | (k, x) :: rest =>
    if a < k then (if v = 0 then (k, x) :: rest else (a, v) :: (k, x) :: rest)
    else if a = k then (if v = 0 then rest else (a, v) :: rest)
    else (k, x) :: Memory.write rest a v

/-- The words of a list at consecutive addresses from `a` on, as cells. -/
def Memory.cellsFrom (a : Nat) (ws : List Int) : Memory :=
  match ws with
  | [] => []
  | w :: rest => if w = 0 then Memory.cellsFrom (a + 1) rest else (a, w) :: Memory.cellsFrom (a + 1) rest

/-- The memory a load leaves (R260): word `i` of the program at address `i`, 0 everywhere else. -/
def Memory.ofProgram (prog : List Int) : Memory := Memory.cellsFrom 0 prog

/-- The canonical form: addresses strictly rising, no cell holding 0. -/
abbrev Memory.wf (m : Memory) : Prop :=
  m.Pairwise (fun c d => c.1 < d.1) ∧ ∀ c ∈ m, c.2 ≠ 0

/-! Memory as the machine reaches it. -/

/-- The check every access makes on its address: a negative one raises `AddressError` (R43, R44, R222); one above a
finite `MAX_ADDR` faults (R45, D2; log entry 5). The answer is the address as a number. -/
def checkAddr (s : State) (addr : Int) : Except FaultCause Nat :=
  if addr < 0 then .error (.addressError addr)
  else if addrAdmitted s.params addr.toNat then .ok addr.toNat
  else .error (.aboveMaxAddr addr)

/-- `MemRead(addr, 1)` (R43). It changes nothing. -/
def memRead (s : State) (addr : Int) : Except FaultCause Int :=
  match checkAddr s addr with
  | .error c => .error c
  | .ok a => .ok (s.mem.read a)

/-- The store itself, at an address already checked (R44). -/
def storeAt (s : State) (a : Nat) (v : Int) : State := { s with mem := s.mem.write a v }

/-- `MemWrite(addr, 1, v)` (R44). An instruction makes the check in phase 8 and the store in phase 10 (R100). -/
def memWrite (s : State) (addr v : Int) : Except FaultCause State :=
  match checkAddr s addr with
  | .error c => .error c
  | .ok a => .ok (storeAt s a v)

/-! Sums. -/

/-- A word that must be representable: `ArithmeticOverflow` otherwise (R114, R226). With the default parameters it is
the word itself. -/
def checkedWord (s : State) (v : Int) : Except FaultCause Int :=
  if wordFits s.params v then .ok v else .error (.arithmeticOverflow s.pc)

/-- The ALU's result, or its overflow (R114). -/
def aluResult (s : State) (fn : AluFn) (a b : Int) : Except FaultCause Int :=
  if aluOverflows s.params fn a b then .error (.arithmeticOverflow s.pc) else .ok (alu fn a b)

/-- The next pointer `p + n` (R21, R108). -/
def nextPc (s : State) (n : Nat) : Except FaultCause Int := checkedWord s (s.pc + n)

/-! Fetch. -/

/-- The words at `addr`, `addr + 1`, ... (R102), `n` of them, read with the ordinary `MemRead`. -/
def fetchWords (s : State) (addr : Int) (n : Nat) : Except FaultCause (List Int) :=
  match n with
  | 0 => .ok []
  | k + 1 =>
    match memRead s addr with
    | .error c => .error c
    | .ok w =>
      match fetchWords s (addr + 1) k with
      | .error c => .error c
      | .ok ws => .ok (w :: ws)

/-- The fault a rejected instruction word raises at position `p` (R75, R76, R78, R79). -/
def decodeFault (iw p : Int) : WordError → FaultCause
  | .negativeWord => .unknownOpcodeError iw p
  | .unknownOpcode op => .unknownOpcodeError (op : Nat) p
  | .invalidMode slot => .invalidModeError iw p slot

/-- Phases 1 to 6 of a step (R100): fetch, sign, decode, opcode, modes, operand words. -/
def fetchInstr (s : State) : Except FaultCause Instr :=
  match memRead s s.pc with
  | .error c => .error c
  | .ok iw =>
    match decodeWord iw with
    | .error e => .error (decodeFault iw s.pc e)
    | .ok i =>
      match fetchWords s (s.pc + 1) i.operandCount with
      | .error c => .error c
      | .ok ws => .ok (i.withOperandList ws)

/-! Channels. -/

/-- `InPoll()` (R192): the oldest value, with the machine it leaves, or none. -/
def inPoll (s : State) : Option (Int × State) :=
  match s.inQueue with
  | [] => none
  | v :: rest => some (v, { s with inQueue := rest })

/-- `OutPush(v)` (R193): it cannot refuse and cannot fail (D21). -/
def outPush (s : State) (v : Int) : State := { s with outLog := s.outLog ++ [v] }

/-! The ends of a step. -/

/-- Fault entry (R229): `run_state` records the cause; everything else keeps its value, `pc` included. -/
def takeFault (s : State) (c : FaultCause) : State := { s with runState := .faulted c }

/-- What stands for a return from a fault (R199, R230): there is no return inside the machine; the host may set the
machine running again after `OutOfInputError` only (D14), and nothing else changes. -/
def retry (s : State) : Host.Outcome State Fault Refusal :=
  match s.runState with
  | .faulted (.outOfInputError _) => .next { s with runState := .running }
  | r => .refused (.retryNotAllowed r)

/-- The halt (R180): the halting position is recorded and `pc` is not written. -/
def enterHalt (s : State) : State := { s with runState := .halted s.pc }

/-- The end of every instruction (R100, R228): the state it commits, or the state before it with the fault taken. -/
def finish (s : State) (r : Except FaultCause State) : Host.Outcome State Fault Refusal :=
  match r with
  | .ok t => .next t
  | .error c => .next (takeFault s c)

/-- The number of a fault kind on a status interface (R221, D12); the kind of D2 has none. -/
def FaultCause.code : FaultCause → Option Nat
  | .addressError _ => some 1
  | .unknownOpcodeError _ _ => some 2
  | .outOfInputError _ => some 3
  | .invalidModeError _ _ _ => some 4
  | .arithmeticOverflow _ => some 5
  | .aboveMaxAddr _ => none

/-- The status code of `run_state` (R221): 0 while running, the fault's code when faulted, none when halted. -/
def RunState.code : RunState → Option Nat
  | .running => some 0
  | .halted _ => none
  | .faulted c => c.code

end Sys2Proof.Machine
end

