-- ==== Sys2Proof/Machine/Operands.lean ====
section
/-! DEFINITION. The address translator (R46, R47 of spec/20_memory.md), operand resolution (R103, R104 of
spec/40_execution_cycle.md), and the two shapes of instruction that several opcodes share. -/

namespace Sys2Proof.Machine

/-- `EA(m, raw)` (R47): position is the raw word, relative is `rb + raw`, an exact sum. The translator checks no sign;
only a finite width can make it fault (R114, R228). -/
def effectiveAddr (s : State) (m : AddrMode) (raw : Int) : Except FaultCause Int :=
  match m with
  | .position => .ok raw
  | .relative => checkedWord s (s.rb + raw)

/-- A word read through the translator (R103). -/
def readVia (s : State) (m : AddrMode) (raw : Int) : Except FaultCause Int :=
  match effectiveAddr s m raw with
  | .error c => .error c
  | .ok addr => memRead s addr

/-- `ReadOperand(m, raw)` (R103). -/
def readOperand (s : State) (o : Operand) : Except FaultCause Int :=
  match o.mode with
  | .position => readVia s .position o.raw
  | .immediate => .ok o.raw
  | .relative => readVia s .relative o.raw

/-- `WriteAddr(m, raw)` with the check of phase 8 (R104, R100): the address stored to, as a number. -/
def writeAddr (s : State) (d : Dest) : Except FaultCause Nat :=
  match effectiveAddr s d.mode d.raw with
  | .error c => .error c
  | .ok addr => checkAddr s addr

/-- The shape of opcodes 1, 2, 7 and 8 (R130, R131, R160, R161): read `a`, read `b`, check `dest`, compute, store,
advance by 4. -/
def aluToMemory (fn : AluFn) (a b : Operand) (d : Dest) (s : State) : Except FaultCause State := do
  let x ← readOperand s a
  let y ← readOperand s b
  let addr ← writeAddr s d
  let v ← aluResult s fn x y
  let n ← nextPc s 4
  .ok { storeAt s addr v with pc := n }

/-- The shape of opcodes 5 and 6 (R150, R151, R153): both operands are resolved before the condition is tested; the
jump is taken when `a = 0` has the truth value `onZero`. The target is an absolute address and never faults here
(R152). `p + 3` is formed only when the jump is not taken (log entry 6). -/
def jumpWhen (onZero : Int) (a target : Operand) (s : State) : Except FaultCause State := do
  let x ← readOperand s a
  let t ← readOperand s target
  if alu .eq x 0 = onZero then .ok { s with pc := t }
  else do
    let n ← nextPc s 3
    .ok { s with pc := n }

end Sys2Proof.Machine
end

