-- ==== Sys2Proof/Machine/AdjustBase.lean ====
section
/-! DEFINITION. `adjust-base` (R170 of spec/45_adjust_base.md). -/

namespace Sys2Proof.Machine

/-- `adjust-base` (opcode 9, R170): the operand is read with the old `rb`, then added to it. -/
def execAdjustBase (a : Operand) (s : State) : Host.Outcome State Fault Refusal :=
  finish s do
    let x ← readOperand s a
    let v ← aluResult s .add s.rb x
    let n ← nextPc s 2
    .ok { s with rb := v, pc := n }

end Sys2Proof.Machine
end

