-- ==== Sys2Proof/Machine/Arithmetic.lean ====
section
/-! DEFINITION. `add` and `mul` (R130 to R132 of spec/41_arithmetic.md). -/

namespace Sys2Proof.Machine

/-- `add` (opcode 1, R130): "dest = a+b", next pointer "p+4". -/
def execAdd (a b : Operand) (d : Dest) (s : State) : Host.Outcome State Fault Refusal :=
  finish s (aluToMemory .add a b d s)

/-- `mul` (opcode 2, R131): "dest = a*b", next pointer "p+4". -/
def execMul (a b : Operand) (d : Dest) (s : State) : Host.Outcome State Fault Refusal :=
  finish s (aluToMemory .mul a b d s)

end Sys2Proof.Machine
end

