-- ==== Sys2Proof/Machine/Compare.lean ====
section
/-! DEFINITION. `less-than` and `equals` (R160 to R162 of spec/44_compare.md). -/

namespace Sys2Proof.Machine

/-- `less-than` (opcode 7, R160): "dest = 1 if a<b else 0", next pointer "p+4". -/
def execLessThan (a b : Operand) (d : Dest) (s : State) : Host.Outcome State Fault Refusal :=
  finish s (aluToMemory .lt a b d s)

/-- `equals` (opcode 8, R161): "dest = 1 if a==b else 0", next pointer "p+4". -/
def execEquals (a b : Operand) (d : Dest) (s : State) : Host.Outcome State Fault Refusal :=
  finish s (aluToMemory .eq a b d s)

end Sys2Proof.Machine
end

