-- ==== Sys2Proof/Machine/Halt.lean ====
section
/-! DEFINITION. `halt` (R180 of spec/46_halt.md). -/

namespace Sys2Proof.Machine

/-- `halt` (opcode 99, R180): not a fault; `run_state` becomes `halted(p)` and nothing else changes. -/
def execHalt (s : State) : Host.Outcome State Fault Refusal := .next (enterHalt s)

end Sys2Proof.Machine
end

