-- ==== Sys2Proof/Machine/InputOutput.lean ====
section
/-! DEFINITION. `input` and `output` (R140 to R142 of spec/42_io.md). -/

namespace Sys2Proof.Machine

/-- `input` (opcode 3, R140): the destination is checked before the source is polled, and a step that faults consumes
nothing (D8, D10). -/
def execInput (d : Dest) (s : State) : Host.Outcome State Fault Refusal :=
  finish s do
    let addr ← writeAddr s d
    match inPoll s with
    | none => .error (.outOfInputError s.pc)
    | some (v, t) =>
      let n ← nextPc s 2
      .ok { storeAt t addr v with pc := n }

/-- `output` (opcode 4, R141): one value pushed, exactly once. -/
def execOutput (a : Operand) (s : State) : Host.Outcome State Fault Refusal :=
  finish s do
    let x ← readOperand s a
    let n ← nextPc s 2
    .ok { outPush s x with pc := n }

end Sys2Proof.Machine
end

