-- ==== Sys2Proof/Machine/Jumps.lean ====
section
/-! DEFINITION. `jump-if-true` and `jump-if-false` (R150 to R153 of spec/43_jumps.md). -/

namespace Sys2Proof.Machine

/-- `jump-if-true` (opcode 5, R150): "if a≠0, pointer=target", that is when `ALU_EQ(a, 0)` is 0 (R115). -/
def execJumpIfTrue (a target : Operand) (s : State) : Host.Outcome State Fault Refusal :=
  finish s (jumpWhen 0 a target s)

/-- `jump-if-false` (opcode 6, R151): "if a==0, pointer=target", that is when `ALU_EQ(a, 0)` is 1 (R115). -/
def execJumpIfFalse (a target : Operand) (s : State) : Host.Outcome State Fault Refusal :=
  finish s (jumpWhen 1 a target s)

end Sys2Proof.Machine
end

