-- ==== Sys2Proof/Machine/Dispatch.lean ====
section
/-! DEFINITION. One arm for each constructor of Instr (R74). -/

namespace Sys2Proof.Machine

/-- What an instruction does (phases 7 to 10 of R100). -/
def exec (i : Instr) (s : State) : Host.Outcome State Fault Refusal :=
  match i with
  | .add a b d => Sys2Proof.Machine.execAdd a b d s
  | .mul a b d => Sys2Proof.Machine.execMul a b d s
  | .input d _ _ => Sys2Proof.Machine.execInput d s
  | .output a _ _ => Sys2Proof.Machine.execOutput a s
  | .jumpIfTrue a t _ => Sys2Proof.Machine.execJumpIfTrue a t s
  | .jumpIfFalse a t _ => Sys2Proof.Machine.execJumpIfFalse a t s
  | .lessThan a b d => Sys2Proof.Machine.execLessThan a b d s
  | .equals a b d => Sys2Proof.Machine.execEquals a b d s
  | .adjustBase a _ _ => Sys2Proof.Machine.execAdjustBase a s
  | .halt _ _ _ => Sys2Proof.Machine.execHalt s

end Sys2Proof.Machine
end

