-- ==== Sys2Proof/Machine/Place.lean ====
section
/-! DEFINITION. Placing words in memory by hand, for the host's probe of one instruction. It is no operation of the
machine: the spec's host changes memory by load and restore only (D22). -/

namespace Sys2Proof.Machine

/-- The words of a list put at consecutive addresses from `a` on. -/
def placeWords (m : Memory) (a : Nat) (ws : List Int) : Memory :=
  match ws with
  | [] => m
  | w :: rest => placeWords (m.write a w) (a + 1) rest

/-- The machine made ready to run an instruction placed at `pc`: running, with `pc` a legal address (0 where it was
negative), and the instruction word `w mod 2^nbits` followed by three operand words of 0. A state whose `MAX_ADDR` cuts
the instruction off has the limit lifted, since the fetch needs it. -/
def placeFetchWord (s : State) (nbits w : Nat) : State :=
  let p := s.pc.toNat
  { s with
    mem := placeWords s.mem p [((w % 2 ^ nbits : Nat) : Int), 0, 0, 0]
    pc := p
    runState := .running
    params := if addrAdmitted s.params (p + 3) then s.params else { s.params with maxAddr := none } }

end Sys2Proof.Machine
end

