-- ==== Sys2Proof/Machine/Step.lean ====
section
/-! DEFINITION. One step (R100 of spec/40_execution_cycle.md). -/

namespace Sys2Proof.Machine

/-- A step exists only when the machine is running (R100): it fetches and decodes (phases 1 to 6), then executes
(phases 7 to 10). A fault on the way is taken (R229). A halted or faulted machine is not stepped (D15). -/
def step (s : State) : Host.Outcome State Fault Refusal :=
  match s.runState with
  | .halted p => .refused (.machineHalted p)
  | .faulted c => .refused (.machineFaulted c)
  | .running =>
    match fetchInstr s with
    | .error c => .next (takeFault s c)
    | .ok i => exec i s

/-- `s` with an opcode-table word placed where `step` fetches its next instruction (log entry 8). -/
def State.withFetchWord (s : State) (nbits w : Nat) : State := placeFetchWord s nbits w

end Sys2Proof.Machine
end

