-- ==== Sys2Proof/Machine/HostInterface.lean ====
section
/-! DEFINITION. What the host can do between steps (R190 to R201 of spec/47_host_interface.md, R260 of
spec/70_reset_and_hazards.md). A run that need not end takes fuel (R266, U13). -/

namespace Sys2Proof.Machine

/-! Load and channels. -/

/-- `Load(prog)` (R260, R262): any list of integers, any length; the host supplies the input source, and the output
sink has received nothing. The parameters of the implementation stay. A program with words above a finite `MAX_ADDR`, or
with words a finite `WORD_BITS` cannot represent, is taken as it comes: neither fault nor refusal. DESIGN CHOICES, unsafe
for a finite implementation (log entries 15 and 7). -/
def loadProgram (s : State) (prog input : List Int) : State :=
  { mem := Memory.ofProgram prog, initLen := prog.length, rb := 0, pc := 0, runState := .running, inQueue := input,
    outLog := [], params := s.params }

/-- The host appends values to the input source between steps (R190, R192), as they come (DESIGN CHOICE, log entry 7). -/
def supplyInput (s : State) (vs : List Int) : State := { s with inQueue := s.inQueue ++ vs }

/-! Checkpoint and restore. -/

/-- A snapshot (R197): by value, the memory (`M` and `L`), `rb` and `pc`; not the channels, not `run_state` (D19). -/
structure Snapshot where
  mem : Memory
  initLen : Nat
  rb : Int
  pc : Int
  deriving DecidableEq, Repr

/-- Checkpoint (R197); it changes nothing in the machine. -/
def checkpoint (s : State) : Snapshot := { mem := s.mem, initLen := s.initLen, rb := s.rb, pc := s.pc }

/-- Restore (R198): memory, `rb` and `pc` from the snapshot, the machine running, the channels left alone (D19). Any
value of the type is taken, also one that no checkpoint of this machine returned, and with words above a finite
`MAX_ADDR`. DESIGN CHOICES (log entries 16 and 15). -/
def restore (s : State) (snap : Snapshot) : State :=
  { s with mem := snap.mem, initLen := snap.initLen, rb := snap.rb, pc := snap.pc, runState := .running }

/-! Driving. -/

/-- Step while the machine runs, at most `fuel` times (R194). -/
def runLoop (fuel : Nat) (s : State) : State :=
  match fuel with
  | 0 => s
  | k + 1 =>
    match step s with
    | .next t => runLoop k t
    | .fault _ => s
    | .refused _ => s

/-- Step while the machine runs and the sink has received `n` values, at most `fuel` times (R196). -/
def outputLoop (n fuel : Nat) (s : State) : State :=
  match fuel with
  | 0 => s
  | k + 1 =>
    if s.outLog.length = n then
      match step s with
      | .next t => outputLoop n k t
      | .fault _ => s
      | .refused _ => s
    else s

/-- An operation that a machine which is not running refuses (R190, D15). -/
def whenRunning (s : State) (t : State) : Host.Outcome State Fault Refusal :=
  match s.runState with
  | .running => .next t
  | .halted p => .refused (.machineHalted p)
  | .faulted c => .refused (.machineFaulted c)

/-- Run to completion (R194), with fuel: a state that is still running at the end is a run that has not ended. -/
def runToCompletion (fuel : Nat) (s : State) : Host.Outcome State Fault Refusal :=
  whenRunning s (runLoop fuel s)

/-- Run to output (R196), with fuel: it ends after the step that pushed a value, or when no step exists (D18). -/
def runToOutput (fuel : Nat) (s : State) : Host.Outcome State Fault Refusal :=
  whenRunning s (outputLoop s.outLog.length fuel s)

/-- The value a run to output returns, "the value pushed, if any" (R196). -/
def valuePushed (before after : State) : Option Int := after.outLog[before.outLog.length]?

/-! The host's moves as one function. -/

/-- The operations of R190's table. The fuel of the two run operations is the model's (U13; log entry 10), and so is it
that `restore` takes any snapshot value, wherever it comes from (log entry 16). -/
inductive HostOp where
  | load (prog input : List Int)
  | supply (vs : List Int)
  | readOutput
  | readState
  | singleStep
  | runToCompletion (fuel : Nat)
  | runToOutput (fuel : Nat)
  | checkpoint
  | restore (snap : Snapshot)
  | retry
  | discard
  deriving DecidableEq, Repr

/-- What an operation gives back to the host (R190, R201). -/
inductive HostReply where
  | nothing
  | output (received : List Int)
  | state (pc : Int) (runState : RunState) (clone : Snapshot)
  | stepped (pc : Int) (runState : RunState)
  | ended (runState : RunState)
  | pushed (runState : RunState) (value : Option Int)
  | snapshot (snap : Snapshot)
  deriving DecidableEq, Repr

/-- How an operation ends: the machine after it with its reply, a refusal that changes nothing, or no machine. -/
inductive HostResult where
  | done (s : State) (r : HostReply)
  | refused (why : Refusal)
  | gone
  deriving DecidableEq, Repr

/-- An outcome of the machine as a result for the host, with the reply read off the state reached. -/
def replyWith (o : Host.Outcome State Fault Refusal) (reply : State → HostReply) : HostResult :=
  match o with
  | .next t => .done t (reply t)
  | .refused why => .refused why
  | .fault f => nomatch f

/-- The host's operations on a live machine (R190). -/
def hostMove (op : HostOp) (s : State) : HostResult :=
  match op with
  | .load prog input => .done (loadProgram s prog input) .nothing
  | .supply vs => .done (supplyInput s vs) .nothing
  | .readOutput => .done s (.output s.outLog)
  | .readState => .done s (.state s.pc s.runState (checkpoint s))
  | .singleStep => replyWith (step s) (fun t => .stepped t.pc t.runState)
  | .runToCompletion fuel => replyWith (runToCompletion fuel s) (fun t => .ended t.runState)
  | .runToOutput fuel => replyWith (runToOutput fuel s) (fun t => .pushed t.runState (valuePushed s t))
  | .checkpoint => .done s (.snapshot (checkpoint s))
  | .restore snap => .done (restore s snap) .nothing
  | .retry => replyWith (retry s) (fun _ => .nothing)
  | .discard => .gone

end Sys2Proof.Machine
end

