-- ==== Sys2Proof/Machine/SplitMemory.lean ====
section
/-! DEFINITION. The document's own representation of memory (R24, R43, R44, R48): the loaded sequence `base` of fixed
length `L` and the sparse extension map `ext`. The machine uses the view `M` (R42) instead; this file is what that view
is compared with. -/

namespace Sys2Proof.Machine

/-- The pair `(base, ext)` of R24; `L` is `base.length`. -/
structure SplitMemory where
  base : List Int
  ext : List Cell
  deriving DecidableEq, Repr

/-- The value of a key in the extension map, 0 if absent (R43). -/
def extLookup (ext : List Cell) (a : Nat) : Int :=
  match ext with
  | [] => 0
  | (k, v) :: rest => if k = a then v else extLookup rest a

/-- Insert a key, or replace its value (R44). -/
def extInsert (ext : List Cell) (a : Nat) (v : Int) : List Cell :=
  match ext with
  | [] => [(a, v)]
  | (k, x) :: rest => if k = a then (a, v) :: rest else (k, x) :: extInsert rest a v

/-- The keys of the extension map are all `>= L` (R24). -/
abbrev SplitMemory.wf (m : SplitMemory) : Prop := ∀ c ∈ m.ext, m.base.length ≤ c.1

/-- `MemRead` at an address `>= 0` (R43): region selection, then the element or the map's value. -/
def SplitMemory.read (m : SplitMemory) (a : Nat) : Int :=
  if a < m.base.length then m.base.getD a 0 else extLookup m.ext a

/-- `MemWrite` at an address `>= 0` (R44): overwrite the element, or insert into the map. -/
def SplitMemory.write (m : SplitMemory) (a : Nat) (v : Int) : SplitMemory :=
  if a < m.base.length then { m with base := m.base.set a v } else { m with ext := extInsert m.ext a v }

/-- Load (R260): the program is `base`, the extension map is empty. -/
def SplitMemory.load (prog : List Int) : SplitMemory := { base := prog, ext := [] }

/-- The view `M` of R42 in the machine's canonical form. -/
def SplitMemory.view (m : SplitMemory) : Memory :=
  m.ext.foldr (fun c acc => acc.write c.1 c.2) (Memory.ofProgram m.base)

end Sys2Proof.Machine
end

