-- ==== Sys2Proof/Safety.lean ====
section
/-! DEFINITION. The terms claims are stated in: what an operand needs to be read or stored to, what it then is, which
fault it raises otherwise, how a run ends, and the invariants of the machine. -/

namespace Sys2Proof.Machine

/-! Operands. -/

/-- `M(a)` of R42 at a word used as an address. -/
def wordAt (s : State) (a : Int) : Int := s.mem.read a.toNat

/-- An address that exists: not negative (R24), and within a finite `MAX_ADDR` (D2). -/
abbrev addressable (s : State) (a : Int) : Prop := 0 ≤ a ∧ addrAdmitted s.params a.toNat = true

/-- The exact effective address of R47, as an integer. -/
def exactAddr (s : State) (m : AddrMode) (raw : Int) : Int :=
  match m with
  | .position => raw
  | .relative => s.rb + raw

/-- The access an operand makes is possible: the relative sum is representable (R114) and the address exists. -/
abbrev reaches (s : State) (m : AddrMode) (raw : Int) : Prop :=
  (m = .relative → wordFits s.params (s.rb + raw) = true) ∧ addressable s (exactAddr s m raw)

/-- A read operand that can be resolved (R103): always, in immediate mode. -/
abbrev readable (s : State) (o : Operand) : Prop := ∀ m ∈ addrModeOf o.mode, reaches s m o.raw

/-- The value of a resolvable read operand (R103). -/
def operandValue (s : State) (o : Operand) : Int :=
  match o.mode with
  | .position => wordAt s o.raw
  | .immediate => o.raw
  | .relative => wordAt s (s.rb + o.raw)

/-- A write destination that can be stored to (R104). -/
abbrev writable (s : State) (d : Dest) : Prop := reaches s d.mode d.raw

/-- The address a writable destination stores to (R104). -/
def destAddress (s : State) (d : Dest) : Nat := (exactAddr s d.mode d.raw).toNat

/-- The fault of an access that is not possible (R114, R222, D2), the overflow of the address sum before the sign. The
kind `aboveMaxAddr` and its place are the model's choice (log entry 5). -/
def accessFault (s : State) (m : AddrMode) (raw : Int) : FaultCause :=
  if m = .relative ∧ wordFits s.params (s.rb + raw) = false then .arithmeticOverflow s.pc
  else if exactAddr s m raw < 0 then .addressError (exactAddr s m raw)
  else .aboveMaxAddr (exactAddr s m raw)

/-- The write destination of an instruction, if it has one (R74). -/
def destOf : Instr → Option Dest
  | .add _ _ d => some d
  | .mul _ _ d => some d
  | .input d _ _ => some d
  | .output _ _ _ => none
  | .jumpIfTrue _ _ _ => none
  | .jumpIfFalse _ _ _ => none
  | .lessThan _ _ d => some d
  | .equals _ _ d => some d
  | .adjustBase _ _ _ => none
  | .halt _ _ _ => none

/-- The read operands of an instruction, in slot order (R74). -/
def readOperandsOf : Instr → List Operand
  | .add a b _ => [a, b]
  | .mul a b _ => [a, b]
  | .input _ _ _ => []
  | .output a _ _ => [a]
  | .jumpIfTrue a t _ => [a, t]
  | .jumpIfFalse a t _ => [a, t]
  | .lessThan a b _ => [a, b]
  | .equals a b _ => [a, b]
  | .adjustBase a _ _ => [a]
  | .halt _ _ _ => []

/-- The exact effective addresses an instruction's operands form: its read operands that have one, then its
destination (R222 b to e). -/
def operandAddrs (s : State) (i : Instr) : List Int :=
  (readOperandsOf i).filterMap (fun o => (addrModeOf o.mode).map (fun m => exactAddr s m o.raw))
    ++ ((destOf i).map (fun d => exactAddr s d.mode d.raw)).toList

/-- The four instructions that compute with the ALU and store the result, each with its ALU function (R115). -/
def aluInstrs : List ((Operand → Operand → Dest → Instr) × AluFn) :=
  [(.add, .add), (.mul, .mul), (.lessThan, .lt), (.equals, .eq)]

/-! The step. -/

/-- The opcode digits of the word `pc` points at. -/
def opcodeAt (s : State) : Nat := (wordAt s s.pc).toNat % 100

/-- The ten opcodes (R74). -/
def knownOpcodes : List Nat := [1, 2, 3, 4, 5, 6, 7, 8, 9, 99]

/-- The machine is running and an instruction word can be fetched (R100, R101). -/
abbrev readyToFetch (s : State) : Prop := s.runState = .running ∧ addressable s s.pc

/-- The next four words at `pc`, as many as the longest instruction has (R70). -/
def wordsAtPc (s : State) : List Int :=
  [wordAt s s.pc, wordAt s (s.pc + 1), wordAt s (s.pc + 2), wordAt s (s.pc + 3)]

/-! The end of a run. -/

/-- The run has ended, well or not (R181). -/
abbrev runEnded (s : State) : Prop := s.runState ≠ .running

/-- The run has ended well: `halted(p)` only (R181). -/
abbrev endedWell (s : State) : Prop := s.runState = .halted s.pc

/-- A safe state: no fault has been taken (R181, R220). -/
def notFaulted (s : State) : Bool :=
  match s.runState with
  | .faulted _ => false
  | .running => true
  | .halted _ => true

/-! Invariants. -/

/-- Memory is in its canonical form. -/
abbrev canonicalMemory (s : State) : Prop := Memory.wf s.mem

/-- A legal finite width (R6), and every word the machine holds is a WORD of it: `pc`, `rb`, each address and value in
memory, and both channels (R6, R114). With unbounded words it says nothing. -/
abbrev wordsFit (s : State) : Prop :=
  s.params.legal ∧ wordFits s.params s.pc = true ∧ wordFits s.params s.rb = true
    ∧ (∀ c ∈ s.mem, wordFits s.params (c.1 : Nat) = true ∧ wordFits s.params c.2 = true)
    ∧ (∀ v ∈ s.inQueue, wordFits s.params v = true) ∧ (∀ v ∈ s.outLog, wordFits s.params v = true)

/-- No word is held above a finite `MAX_ADDR` (D2): a premise, since a load or a restore may bring such words (log
entry 15). -/
abbrev withinStorage (s : State) : Prop := ∀ c ∈ s.mem, addrAdmitted s.params c.1 = true

end Sys2Proof.Machine
end

