-- ==== Sys2Proof/Certificates/Slice0/Obligations.lean ====
section
/-! DEFINITION. The statements for the provers. Each names the rules of spec/ it rests on; where it rests on a decision
or a derivation the spec marks as its own, or on a choice of the model, it says so. Statements hold for every value of
the OPEN parameters `WORD_BITS` and `MAX_ADDR` unless they say otherwise; what they say of a finite `WORD_BITS` rests on
the range of log entry 9 (`wordFits`). -/

open Sys2Proof Sys2Proof.Machine

/-! Decoder and encoder. -/

/-- R72: the fields `Decode` gives are the digits of R71: opcode `w mod 100`, modes the digits 2, 3 and 4, digits above
discarded; and its worked example, `1105`. -/
def Obligations.DecodeFieldsAreDigits : Prop :=
  (∀ w : Nat, decodeFields w = { opcode := w % 100, m1 := digit 2 w, m2 := digit 3 w, m3 := digit 4 w })
    ∧ decodeFields 1105 = { opcode := 5, m1 := 1, m2 := 1, m3 := 0 }

/-- The round trip on fields (section 2 of 30_encoding.md; the spec's own derivation, marked so in R73). -/
def Obligations.FieldsRoundTrip : Prop :=
  (∀ f : Fields, f.opcode ≤ 99 → f.m1 ≤ 9 → f.m2 ≤ 9 → f.m3 ≤ 9 → decodeFields (encodeFields f) = f)
    ∧ ∀ w : Nat, encodeFields (decodeFields w) = w % 100000

/-- Decoding the words of any instruction, followed by any words, gives the instruction back with every mode and every
operand word, and leaves the words after it. Every instruction, at every value of every operand. -/
def Obligations.DecodeOfEncode : Prop :=
  ∀ (i : Instr) (rest : List Int), decode (encode i ++ rest) = .ok (i, rest)

/-- Whatever decodes re-encodes to the words it came from, but for the digits above the ten-thousands place of the
instruction word (R73, R77, R81). -/
def Obligations.EncodeOfDecode : Prop :=
  ∀ (iw : Int) (ws : List Int) (i : Instr) (rest : List Int),
    decode (iw :: ws) = .ok (i, rest) → 0 ≤ iw ∧ encode i ++ rest = (iw % 100000) :: ws

/-- R77: digits above the ten-thousands place are ignored, by the decoder and by the fetch of an instruction: in a
memory in canonical form, the word at `pc` may be replaced by its last five digits. -/
def Obligations.ExcessDigitsIgnored : Prop :=
  (∀ (iw : Int) (ws : List Int), 0 ≤ iw → decode (iw :: ws) = decode ((iw % 100000) :: ws))
    ∧ ∀ (s : State) (i : Instr), canonicalMemory s → addressable s s.pc → 0 ≤ wordAt s s.pc →
        (fetchInstr s = .ok i ↔ fetchInstr (storeAt s s.pc.toNat (wordAt s s.pc % 100000)) = .ok i)

/-- Words written out from the encodings of 30_encoding.md (R71, R74, R83), one or more for each family. -/
def Obligations.WrittenOutWordsDecode : Prop :=
  decode [21101, 3, 4, -2] = .ok (.add ⟨.immediate, 3⟩ ⟨.immediate, 4⟩ ⟨.relative, -2⟩, [])
    ∧ decode [1002, 4, 3, 4, 33] = .ok (.mul ⟨.position, 4⟩ ⟨.immediate, 3⟩ ⟨.position, 4⟩, [33])
    ∧ decode [203, 5] = .ok (.input ⟨.relative, 5⟩ .position .position, [])
    ∧ decode [204, -1] = .ok (.output ⟨.relative, -1⟩ .position .position, [])
    ∧ decode [1105, 1, 9] = .ok (.jumpIfTrue ⟨.immediate, 1⟩ ⟨.immediate, 9⟩ .position, [])
    ∧ decode [1006, 101, 0] = .ok (.jumpIfFalse ⟨.position, 101⟩ ⟨.immediate, 0⟩ .position, [])
    ∧ decode [22207, 1, 0, 2] = .ok (.lessThan ⟨.relative, 1⟩ ⟨.relative, 0⟩ ⟨.relative, 2⟩, [])
    ∧ decode [1008, 100, 16, 101] = .ok (.equals ⟨.position, 100⟩ ⟨.immediate, 16⟩ ⟨.position, 101⟩, [])
    ∧ decode [109, 1] = .ok (.adjustBase ⟨.immediate, 1⟩ .position .position, [])
    ∧ decode [21099] = .ok (.halt .position .immediate .relative, [])

/-- Of the hundred thousand words `0 .. 99999`, 225 are legal instruction words (section 6 of 30_encoding.md; the
spec's own derivation in R83, resting on decisions D6 and D7). -/
def Obligations.LegalWordCount : Prop :=
  ((Finset.range 100000).filter (fun w : Nat => (decodeWord (w : Int)).isOk = true)).card = 225

/-! Words that are no instruction. -/

/-- R75: every opcode value but the ten faults, surfacing the opcode and the position; nothing else changes. -/
def Obligations.UnknownOpcodeFaults : Prop :=
  ∀ s : State, readyToFetch s → 0 ≤ wordAt s s.pc → opcodeAt s ∉ knownOpcodes →
    step s = .next (takeFault s (.unknownOpcodeError (opcodeAt s : Nat) s.pc))

/-- A negative instruction word is not decoded: it faults, reporting the whole word (the spec's decision D5). -/
def Obligations.NegativeWordFaults : Prop :=
  ∀ s : State, readyToFetch s → wordAt s s.pc < 0 →
    step s = .next (takeFault s (.unknownOpcodeError (wordAt s s.pc) s.pc))

/-- A mode digit above 2, in any of the three positions and whether or not the opcode uses it, faults with the lowest
offending slot, once the opcode is known (the spec's decision D6). -/
def Obligations.ModeDigitAboveTwoFaults : Prop :=
  ∀ (s : State) (slot : Nat), readyToFetch s → 0 ≤ wordAt s s.pc → opcodeAt s ∈ knownOpcodes →
    1 ≤ slot → slot ≤ 3 → 2 < digit (slot + 1) (wordAt s s.pc).toNat →
    (∀ k, 1 ≤ k → k < slot → digit (k + 1) (wordAt s s.pc).toNat ≤ 2) →
    step s = .next (takeFault s (.invalidModeError (wordAt s s.pc) s.pc slot))

/-- Immediate mode on a write destination faults before any operand word is read: slot 3 of opcodes 1, 2, 7, 8 and slot
1 of opcode 3 (the spec's decision D7, the fail-fast option the document offers). -/
def Obligations.ImmediateDestinationFaults : Prop :=
  ∀ (s : State) (slot : Nat), readyToFetch s → 0 ≤ wordAt s s.pc →
    (∀ k, 1 ≤ k → k ≤ 3 → digit (k + 1) (wordAt s s.pc).toNat ≤ 2) →
    (opcodeAt s ∈ [1, 2, 7, 8] ∧ slot = 3 ∨ opcodeAt s = 3 ∧ slot = 1) →
    digit (slot + 1) (wordAt s s.pc).toNat = 1 →
    step s = .next (takeFault s (.invalidModeError (wordAt s s.pc) s.pc slot))

/-! Memory and the translator. -/

/-- R43, in the document's own representation: `MemRead` of a negative address raises `AddressError` with it; otherwise
it answers the element of the loaded sequence, or the extension map's value, or 0 if the map has none. The premise on
`MAX_ADDR` is its default (R6). -/
def Obligations.MemReadFollowsRegions : Prop :=
  ∀ (s : State) (m : SplitMemory) (addr : Int), s.params.maxAddr = none → m.wf → s.mem = m.view →
    (addr < 0 → memRead s addr = .error (.addressError addr))
      ∧ (0 ≤ addr → addr.toNat < m.base.length → memRead s addr = .ok (m.base.getD addr.toNat 0))
      ∧ (0 ≤ addr → m.base.length ≤ addr.toNat → memRead s addr = .ok (extLookup m.ext addr.toNat))

/-- R44, in the document's own representation: `MemWrite` of a negative address raises `AddressError` with it; otherwise
the memory becomes the one whose element is overwritten or whose extension map has the key inserted or replaced, the
address then reads the value, and no other address changes. The premise on `MAX_ADDR` is its default (R6). -/
def Obligations.MemWriteFollowsRegions : Prop :=
  ∀ (s : State) (m : SplitMemory) (addr v : Int), s.params.maxAddr = none → m.wf → s.mem = m.view →
    (addr < 0 → memWrite s addr v = .error (.addressError addr))
      ∧ (0 ≤ addr → memWrite s addr v = .ok { s with mem := (m.write addr.toNat v).view }
          ∧ ((m.write addr.toNat v).view).read addr.toNat = v
          ∧ ∀ b : Nat, b ≠ addr.toNat → ((m.write addr.toNat v).view).read b = s.mem.read b)

/-- The one-list view of memory refines the document's pair `(base, ext)`: after a load and any sequence of writes the
two hold the same words, `L` has not changed, and the keys of the extension map are still all `>= L` (section 1 of
20_memory.md; the spec's own derivation, marked so in R42). -/
def Obligations.OneListRefinesSplitMemory : Prop :=
  ∀ (prog : List Int) (ws : List (Nat × Int)),
    let m := ws.foldl (fun m w => SplitMemory.write m w.1 w.2) (SplitMemory.load prog)
    m.wf ∧ m.base.length = prog.length
      ∧ m.view = ws.foldl (fun mem w => Memory.write mem w.1 w.2) (Memory.ofProgram prog)
      ∧ ∀ a : Nat, m.view.read a = m.read a

/-- R47: the effective addresses of the two modes that have one, none for immediate; a negative one raises
`AddressError` with the translated address when it is used; and the three modes of a read. The premises are the
default parameters (R6), under which the sum is exact and unlimited. -/
def Obligations.TranslatorFollowsModes : Prop :=
  addrModeOf .immediate = none ∧
  ∀ (s : State) (raw : Int), s.params = Params.default →
    effectiveAddr s .position raw = .ok raw
      ∧ effectiveAddr s .relative raw = .ok (s.rb + raw)
      ∧ readOperand s ⟨.immediate, raw⟩ = .ok raw
      ∧ (0 ≤ raw → readOperand s ⟨.position, raw⟩ = .ok (wordAt s raw)
          ∧ writeAddr s ⟨.position, raw⟩ = .ok raw.toNat)
      ∧ (raw < 0 → readOperand s ⟨.position, raw⟩ = .error (.addressError raw)
          ∧ writeAddr s ⟨.position, raw⟩ = .error (.addressError raw))
      ∧ (0 ≤ s.rb + raw → readOperand s ⟨.relative, raw⟩ = .ok (wordAt s (s.rb + raw))
          ∧ writeAddr s ⟨.relative, raw⟩ = .ok (s.rb + raw).toNat)
      ∧ (s.rb + raw < 0 → readOperand s ⟨.relative, raw⟩ = .error (.addressError (s.rb + raw))
          ∧ writeAddr s ⟨.relative, raw⟩ = .error (.addressError (s.rb + raw)))

/-- An access above a finite `MAX_ADDR` faults and neither wraps nor aliases (decision D2; that the fault is taken under
the model's own kind `aboveMaxAddr` is the model's choice, log entry 5). -/
def Obligations.AccessAboveLimitFaults : Prop :=
  ∀ (s : State) (limit : Nat) (addr v : Int), s.params.maxAddr = some limit → (limit : Int) < addr →
    memRead s addr = .error (.aboveMaxAddr addr) ∧ memWrite s addr v = .error (.aboveMaxAddr addr)

/-! The ALU. -/

/-- R110, R111, R112: the product is exact, less-than and equality are the exact comparisons of the two integers with
results 1 and 0, and no comparison ever overflows. -/
def Obligations.AluIsExact : Prop :=
  ∀ (p : Params) (a b : Int),
    alu .mul a b = a * b
      ∧ (a < b → alu .lt a b = 1) ∧ (b ≤ a → alu .lt a b = 0)
      ∧ (a = b → alu .eq a b = 1) ∧ (a ≠ b → alu .eq a b = 0)
      ∧ aluOverflows p .lt a b = false ∧ aluOverflows p .eq a b = false

/-! What each instruction does where it completes. The next state is written out whole, so it states the frame too. -/

/-- `add` and `mul` complete whenever their operands can be read, their destination can be stored to, and the result and
the next pointer are words: the exact sum or product is stored at the destination and `pc` advances by 4
(41_arithmetic.md). -/
def Obligations.AddAndMulComplete : Prop :=
  ∀ (s : State) (a b : Operand) (d : Dest), readable s a → readable s b → writable s d →
    wordFits s.params (s.pc + 4) = true →
    (wordFits s.params (operandValue s a + operandValue s b) = true →
      exec (.add a b d) s = .next { s with
        mem := s.mem.write (destAddress s d) (operandValue s a + operandValue s b), pc := s.pc + 4 })
    ∧ (wordFits s.params (operandValue s a * operandValue s b) = true →
      exec (.mul a b d) s = .next { s with
        mem := s.mem.write (destAddress s d) (operandValue s a * operandValue s b), pc := s.pc + 4 })

/-- `less-than` and `equals` complete whenever their operands can be read, their destination can be stored to and the
next pointer is a word: 1 or 0 is stored at the destination and `pc` advances by 4 (44_compare.md). -/
def Obligations.ComparisonsComplete : Prop :=
  ∀ (s : State) (a b : Operand) (d : Dest), readable s a → readable s b → writable s d →
    wordFits s.params (s.pc + 4) = true →
    exec (.lessThan a b d) s = .next { s with
      mem := s.mem.write (destAddress s d) (if operandValue s a < operandValue s b then 1 else 0), pc := s.pc + 4 }
    ∧ exec (.equals a b d) s = .next { s with
      mem := s.mem.write (destAddress s d) (if operandValue s a = operandValue s b then 1 else 0), pc := s.pc + 4 }

/-- `input` completes when its destination can be stored to and the source has a value: the oldest value is consumed and
stored unchanged, and `pc` advances by 2 (42_io.md). -/
def Obligations.InputCompletes : Prop :=
  ∀ (s : State) (d : Dest) (x2 x3 : Mode) (v : Int) (rest : List Int), writable s d → s.inQueue = v :: rest →
    wordFits s.params (s.pc + 2) = true →
    exec (.input d x2 x3) s = .next { s with
      mem := s.mem.write (destAddress s d) v, inQueue := rest, pc := s.pc + 2 }

/-- `output` completes when its operand can be read: the value goes to the sink unchanged, after those already there,
and `pc` advances by 2 (42_io.md). -/
def Obligations.OutputCompletes : Prop :=
  ∀ (s : State) (a : Operand) (x2 x3 : Mode), readable s a → wordFits s.params (s.pc + 2) = true →
    exec (.output a x2 x3) s = .next { s with outLog := s.outLog ++ [operandValue s a], pc := s.pc + 2 }

/-- The conditional jumps complete when both operands can be read: `jump-if-true` goes to the value of `target` on every
non-zero `a`, `jump-if-false` on zero, whatever the target is; otherwise `pc` advances by 3. Nothing else changes, so for
the same operands exactly one of the two is taken (43_jumps.md; that `target` is resolved even when the jump is not
taken is the spec's decision D9; that `p + 3` is formed only when needed is the model's choice, log entry 6). -/
def Obligations.JumpsComplete : Prop :=
  ∀ (s : State) (a target : Operand) (x3 : Mode), readable s a → readable s target →
    (operandValue s a ≠ 0 →
      exec (.jumpIfTrue a target x3) s = .next { s with pc := operandValue s target }
      ∧ (wordFits s.params (s.pc + 3) = true → exec (.jumpIfFalse a target x3) s = .next { s with pc := s.pc + 3 }))
    ∧ (operandValue s a = 0 →
      exec (.jumpIfFalse a target x3) s = .next { s with pc := operandValue s target }
      ∧ (wordFits s.params (s.pc + 3) = true → exec (.jumpIfTrue a target x3) s = .next { s with pc := s.pc + 3 }))

/-- `adjust-base` completes when its operand can be read and the sum is a word: the operand, read with the old `rb`, is
added to `rb`, which may become negative, and `pc` advances by 2 (45_adjust_base.md). -/
def Obligations.AdjustBaseCompletes : Prop :=
  ∀ (s : State) (a : Operand) (x2 x3 : Mode), readable s a →
    wordFits s.params (s.rb + operandValue s a) = true → wordFits s.params (s.pc + 2) = true →
    exec (.adjustBase a x2 x3) s = .next { s with rb := s.rb + operandValue s a, pc := s.pc + 2 }

/-- `halt` always completes: `run_state` becomes `halted(p)`, `pc` keeps `p` (decision D13), nothing else changes, and
no further step exists (46_halt.md). -/
def Obligations.HaltCompletes : Prop :=
  ∀ (s : State) (x1 x2 x3 : Mode),
    exec (.halt x1 x2 x3) s = .next { s with runState := .halted s.pc }
      ∧ step { s with runState := .halted s.pc } = .refused (.machineHalted s.pc)

/-! Where each instruction faults, in the order of its checks (R228, the spec's decision D8). -/

/-- `add`, `mul`, `less-than`, `equals`: the first of operand 1, operand 2 and the destination whose access is not
possible gives the fault; after them, a result or next pointer that is no word gives `ArithmeticOverflow`. The order is
the spec's decision D8. Under a finite `MAX_ADDR` the kind `aboveMaxAddr`, and that it stands where the sign of the same
address is checked, are the model's choice (log entry 5); that one `ArithmeticOverflow` serves where result and next
pointer both overflow is the model's choice too (log entry 6). -/
def Obligations.AluInstructionsFaultInOrder : Prop :=
  ∀ p ∈ aluInstrs, ∀ (s : State) (a b : Operand) (d : Dest),
    (∀ m, addrModeOf a.mode = some m → ¬ reaches s m a.raw →
      exec (p.1 a b d) s = .next (takeFault s (accessFault s m a.raw)))
    ∧ (∀ m, readable s a → addrModeOf b.mode = some m → ¬ reaches s m b.raw →
      exec (p.1 a b d) s = .next (takeFault s (accessFault s m b.raw)))
    ∧ (readable s a → readable s b → ¬ writable s d →
      exec (p.1 a b d) s = .next (takeFault s (accessFault s d.mode d.raw)))
    ∧ (readable s a → readable s b → writable s d →
      (aluOverflows s.params p.2 (operandValue s a) (operandValue s b) = true ∨ wordFits s.params (s.pc + 4) = false) →
      exec (p.1 a b d) s = .next (takeFault s (.arithmeticOverflow s.pc)))

/-- `input`: a destination that cannot be stored to faults before the source is polled; then an empty source raises
`OutOfInputError(p)`; then a next pointer that is no word raises `ArithmeticOverflow`. No value is consumed in any of
them (decisions D8 and D10). Under a finite `MAX_ADDR` the destination's fault is of the kind `aboveMaxAddr`, before the
poll: kind and place are the model's choice (log entry 5). -/
def Obligations.InputFaultsInOrder : Prop :=
  ∀ (s : State) (d : Dest) (x2 x3 : Mode),
    (¬ writable s d → exec (.input d x2 x3) s = .next (takeFault s (accessFault s d.mode d.raw)))
    ∧ (writable s d → s.inQueue = [] → exec (.input d x2 x3) s = .next (takeFault s (.outOfInputError s.pc)))
    ∧ (writable s d → s.inQueue ≠ [] → wordFits s.params (s.pc + 2) = false →
      exec (.input d x2 x3) s = .next (takeFault s (.arithmeticOverflow s.pc)))

/-- `output` and `adjust-base`: an operand whose access is not possible gives the fault; then a sum or next pointer that
is no word gives `ArithmeticOverflow`. Under a finite `MAX_ADDR` the kind `aboveMaxAddr` and its place are the model's
choice (log entry 5), and that one `ArithmeticOverflow` serves for sum and next pointer is too (log entry 6). -/
def Obligations.OneOperandInstructionsFaultInOrder : Prop :=
  ∀ (s : State) (a : Operand) (x2 x3 : Mode),
    (∀ m, addrModeOf a.mode = some m → ¬ reaches s m a.raw →
      exec (.output a x2 x3) s = .next (takeFault s (accessFault s m a.raw))
      ∧ exec (.adjustBase a x2 x3) s = .next (takeFault s (accessFault s m a.raw)))
    ∧ (readable s a → wordFits s.params (s.pc + 2) = false →
      exec (.output a x2 x3) s = .next (takeFault s (.arithmeticOverflow s.pc))
      ∧ exec (.adjustBase a x2 x3) s = .next (takeFault s (.arithmeticOverflow s.pc)))
    ∧ (readable s a → wordFits s.params (s.rb + operandValue s a) = false →
      exec (.adjustBase a x2 x3) s = .next (takeFault s (.arithmeticOverflow s.pc)))

/-- The conditional jumps: the first of `a` and `target` whose access is not possible gives the fault, whether or not
the jump would be taken (decision D9); a jump not taken whose next pointer is no word gives `ArithmeticOverflow`. Under a
finite `MAX_ADDR` the kind `aboveMaxAddr` and its place are the model's choice (log entry 5); that only a jump not taken
forms `p + 3` is the model's choice (log entry 6). -/
def Obligations.JumpsFaultInOrder : Prop :=
  ∀ (s : State) (a target : Operand) (x3 : Mode),
    (∀ m, addrModeOf a.mode = some m → ¬ reaches s m a.raw →
      exec (.jumpIfTrue a target x3) s = .next (takeFault s (accessFault s m a.raw))
      ∧ exec (.jumpIfFalse a target x3) s = .next (takeFault s (accessFault s m a.raw)))
    ∧ (∀ m, readable s a → addrModeOf target.mode = some m → ¬ reaches s m target.raw →
      exec (.jumpIfTrue a target x3) s = .next (takeFault s (accessFault s m target.raw))
      ∧ exec (.jumpIfFalse a target x3) s = .next (takeFault s (accessFault s m target.raw)))
    ∧ (readable s a → readable s target → wordFits s.params (s.pc + 3) = false →
      (operandValue s a = 0 → exec (.jumpIfTrue a target x3) s = .next (takeFault s (.arithmeticOverflow s.pc)))
      ∧ (operandValue s a ≠ 0 → exec (.jumpIfFalse a target x3) s = .next (takeFault s (.arithmeticOverflow s.pc))))

/-! Frames. -/

/-- `add`, `mul`, `less-than`, `equals`, `input`, whichever way they end: `rb`, `L`, the sink and the parameters are
unchanged; the input source is unchanged but for `input`, which takes at most its oldest value from it; `run_state` is
unchanged or faulted; and every word of memory outside the one address the destination names reads as before. -/
def Obligations.StoringInstructionsFrame : Prop :=
  ∀ (i : Instr) (d : Dest) (s t : State), destOf i = some d → exec i s = .next t →
    t.rb = s.rb ∧ t.initLen = s.initLen ∧ t.outLog = s.outLog ∧ t.params = s.params
      ∧ (i.op ≠ .input → t.inQueue = s.inQueue)
      ∧ (t.inQueue = s.inQueue ∨ ∃ v, s.inQueue = v :: t.inQueue)
      ∧ (t.runState = s.runState ∨ ∃ c, t.runState = .faulted c)
      ∧ ∀ a : Nat, writeAddr s d ≠ .ok a → t.mem.read a = s.mem.read a

/-- `output`, the jumps, `adjust-base` and `halt`, whichever way they end: memory, `L`, the input source and the
parameters are unchanged; the sink is unchanged but for `output`, and `rb` but for `adjust-base`. -/
def Obligations.OtherInstructionsFrame : Prop :=
  ∀ (i : Instr) (s t : State), destOf i = none → exec i s = .next t →
    t.mem = s.mem ∧ t.initLen = s.initLen ∧ t.inQueue = s.inQueue ∧ t.params = s.params
      ∧ (i.op ≠ .output → t.outLog = s.outLog) ∧ (i.op ≠ .adjustBase → t.rb = s.rb)
      ∧ (i.op ≠ .halt → t.runState = s.runState ∨ ∃ c, t.runState = .faulted c)
      ∧ (i.op = .halt → t.pc = s.pc)

/-! The step. -/

/-- When the words at `pc` decode to an instruction and its own words are all at existing addresses, a step of a running
machine is `exec` of that instruction, at that very state: nothing is done around it. -/
def Obligations.StepRunsDecodedInstruction : Prop :=
  ∀ (s : State) (i : Instr) (rest : List Int), s.runState = .running → decode (wordsAtPc s) = .ok (i, rest) →
    (∀ k : Nat, k ≤ i.operandCount → addressable s (s.pc + k)) → step s = exec i s

/-- When the word at `pc` is accepted and the `k`-th of its operand words is the first at an address above a finite
`MAX_ADDR`, the step faults in the fetch of the operands, before any operand is resolved, with that address (decision D2;
the kind and its place are the model's choice, log entry 5). -/
def Obligations.OperandWordAboveLimitFaults : Prop :=
  ∀ (s : State) (i : Instr) (limit k : Nat), readyToFetch s → s.params.maxAddr = some limit →
    decodeWord (wordAt s s.pc) = .ok i → 1 ≤ k → k ≤ i.operandCount → s.pc + k = limit + 1 →
    step s = .next (takeFault s (.aboveMaxAddr (s.pc + k)))

/-- A `pc` that is negative faults at fetch with its own value (40_execution_cycle.md section 1, the derivation marked
in R101, and case (a) of R222). -/
def Obligations.NegativePcFaults : Prop :=
  ∀ s : State, s.runState = .running → s.pc < 0 → step s = .next (takeFault s (.addressError s.pc))

/-- A running machine always has a step, it answers a next state, and that state is running, halted at the address of
the instruction word, or faulted (R100; the third value of `run_state` is the spec's decision D11). -/
def Obligations.RunningMachineSteps : Prop :=
  ∀ s : State, s.runState = .running →
    ∃ t, step s = .next t ∧ (t.runState = .running ∨ t.runState = .halted s.pc ∨ ∃ c, t.runState = .faulted c)

/-- A halted or faulted machine has no step: the call is refused (the spec's decision D15). -/
def Obligations.EndedMachineIsNotStepped : Prop :=
  ∀ s : State, (∀ p, s.runState = .halted p → step s = .refused (.machineHalted p))
    ∧ ∀ c, s.runState = .faulted c → step s = .refused (.machineFaulted c)

/-- R229: a step that faults changes `run_state` to the fault and nothing else: memory, `rb`, `pc` and both channels
keep the values they had when the step began; and the machine then has no step. -/
def Obligations.FaultChangesOnlyRunState : Prop :=
  ∀ (s t : State) (c : FaultCause), step s = .next t → t.runState = .faulted c →
    t = { s with runState := .faulted c } ∧ step t = .refused (.machineFaulted c)

/-- The machine halts only on opcode 99, at the address of that word, and a halting step changes nothing but
`run_state` (46_halt.md; that the halting position is `p` and `pc` keeps it is the spec's decision D13). -/
def Obligations.OnlyOpcode99Halts : Prop :=
  ∀ (s t : State) (p : Int), step s = .next t → t.runState = .halted p →
    p = s.pc ∧ opcodeAt s = 99 ∧ t = { s with runState := .halted s.pc }

/-- `rb` is written only by opcode 9 (section 3 of 10_state.md). -/
def Obligations.OnlyAdjustBaseWritesRb : Prop :=
  ∀ s t : State, step s = .next t → t.rb ≠ s.rb → opcodeAt s = 9

/-- Only opcode 3 takes a value from the input source, and it takes the oldest one, exactly one (42_io.md). -/
def Obligations.OnlyInputConsumes : Prop :=
  ∀ s t : State, step s = .next t →
    t.inQueue = s.inQueue ∨ (opcodeAt s = 3 ∧ ∃ v, s.inQueue = v :: t.inQueue)

/-- Only opcode 4 gives a value to the sink, exactly one, after those already there (42_io.md). -/
def Obligations.OnlyOutputEmits : Prop :=
  ∀ s t : State, step s = .next t →
    t.outLog = s.outLog ∨ (opcodeAt s = 4 ∧ ∃ v, t.outLog = s.outLog ++ [v])

/-- A step changes memory at most at the address the fetched instruction's write destination names; only opcodes 1, 2,
3, 7 and 8 change it at all (20_memory.md section 4, 30_encoding.md section 3). -/
def Obligations.OnlyTheDestinationIsStored : Prop :=
  ∀ s t : State, step s = .next t →
    (∀ a : Nat, (∀ i d, fetchInstr s = .ok i → destOf i = some d → writeAddr s d ≠ .ok a) →
      t.mem.read a = s.mem.read a)
    ∧ (opcodeAt s ∉ [1, 2, 3, 7, 8] → t.mem = s.mem)

/-- An `AddressError` comes from the fetch of a negative `pc` or from a negative effective address of one of the fetched
instruction's operands, and from nothing else; in particular never from the fetch of an operand word (cases (a) to (e) of
60_exceptions.md section 1). -/
def Obligations.AddressErrorsComeFromOperands : Prop :=
  ∀ (s t : State) (x : Int), step s = .next t → t.runState = .faulted (.addressError x) →
    x < 0 ∧ (x = s.pc ∨ ∃ i, fetchInstr s = .ok i ∧ x ∈ operandAddrs s i)

/-- With the default `WORD_BITS` no step overflows, and with the default `MAX_ADDR` no step meets a limit
(60_exceptions.md section 1, 20_memory.md section 2; decisions D1 and D2). -/
def Obligations.DefaultParametersNeverLimit : Prop :=
  ∀ (s t : State) (c : FaultCause), step s = .next t → t.runState = .faulted c →
    (s.params.wordBits = none → ∀ p, c ≠ .arithmeticOverflow p)
    ∧ (s.params.maxAddr = none → ∀ a, c ≠ .aboveMaxAddr a)

/-- A store is seen by the very next fetch: an ALU instruction that completes and stores at the address of the next
instruction leaves a machine whose fetch reads the result (section 5 of 20_memory.md; the spec's own derivation, marked
so in R56). -/
def Obligations.NextFetchSeesTheStore : Prop :=
  ∀ p ∈ aluInstrs, ∀ (s : State) (a b : Operand) (d : Dest), canonicalMemory s → readable s a → readable s b →
    writable s d → aluOverflows s.params p.2 (operandValue s a) (operandValue s b) = false →
    wordFits s.params (s.pc + 4) = true → exactAddr s d.mode d.raw = s.pc + 4 →
    ∃ t, exec (p.1 a b d) s = .next t ∧ t.pc = s.pc + 4
      ∧ memRead t t.pc = .ok (alu p.2 (operandValue s a) (operandValue s b))

/-- Which instruction raises which fault while it executes (R227's table; the spec's own derivation): none raises
`UnknownOpcodeError` or `InvalidModeError`, which belong to the decoder; only `input` raises `OutOfInputError`; `halt`
raises nothing. -/
def Obligations.FaultKindsByInstruction : Prop :=
  ∀ (i : Instr) (s t : State) (c : FaultCause), s.runState = .running → exec i s = .next t →
    t.runState = .faulted c →
    (∀ n p, c ≠ .unknownOpcodeError n p) ∧ (∀ w p k, c ≠ .invalidModeError w p k)
      ∧ (∀ p, c = .outOfInputError p → i.op = .input ∧ p = s.pc) ∧ i.op ≠ .halt

/-- `L` and the sink are not observable, and the input source only by opcode 3: a step of a machine that differs in
them, and runs another opcode where its input differs, is the same step (R29, R42 and R100; R29's and R42's parts are
the spec's own derivations). -/
def Obligations.StepIgnoresSinkAndLength : Prop :=
  ∀ (s t : State) (n : Nat) (log q : List Int), step s = .next t → (q = s.inQueue ∨ opcodeAt s ≠ 3) →
    step { s with initLen := n, outLog := log, inQueue := q } =
      .next { t with initLen := n, outLog := log ++ t.outLog.drop s.outLog.length,
                     inQueue := if opcodeAt s = 3 then t.inQueue else q }

/-! Invariants. -/

/-- Every step keeps memory in the model's canonical form. -/
def Obligations.StepKeepsCanonicalMemory : Prop :=
  ∀ s t : State, canonicalMemory s → step s = .next t → canonicalMemory t

/-- Every step of a finite-width implementation keeps every word representable: nothing unrepresentable is ever stored,
emitted, added to `rb` or jumped to (40_execution_cycle.md section 3; finite widths are the spec's decision D1). It rests
on the range of a finite word, which is presumed (log entry 9), and on the premise that what the host supplied is
representable, which the model does not check (log entry 7). -/
def Obligations.StepKeepsWordsRepresentable : Prop :=
  ∀ s t : State, wordsFit s → step s = .next t → wordsFit t

/-- Every step keeps memory within a finite `MAX_ADDR`, and no step changes `L` or the parameters (decision D2;
70_reset_and_hazards.md section 1). The premise is not met after a load or a restore that brings words above the limit,
which the model takes (its choice, log entry 15). -/
def Obligations.StepKeepsStorageBounds : Prop :=
  ∀ s t : State, withinStorage s → step s = .next t →
    withinStorage t ∧ t.initLen = s.initLen ∧ t.params = s.params

/-- `State.reset` meets the three invariants, for any legal parameters put into it. That it holds the empty program and
an empty input source is the model's choice (log entries 1 and 2): a load of words too wide for a finite `WORD_BITS`, or
of a program beyond a finite `MAX_ADDR`, would not meet them (log entries 7 and 15). -/
def Obligations.ResetMeetsInvariants : Prop :=
  ∀ p : Params, p.legal →
    canonicalMemory { State.reset with params := p } ∧ wordsFit { State.reset with params := p }
      ∧ withinStorage { State.reset with params := p }

/-! The host. -/

/-- A load sets every piece of state: word `i` of the program at address `i` and 0 everywhere else, `rb` 0, `pc` 0,
running, the input given, an empty sink; and its memory is canonical (70_reset_and_hazards.md section 1; `pc` 0 is the
spec's decision D4, the empty sink D3). That it does so for words too wide for a finite `WORD_BITS`, and for words above
a finite `MAX_ADDR`, is the model's choice (log entries 7 and 15). -/
def Obligations.LoadSetsEverything : Prop :=
  ∀ (s : State) (prog input : List Int),
    (∀ a : Nat, (loadProgram s prog input).mem.read a = prog.getD a 0)
      ∧ canonicalMemory (loadProgram s prog input)
      ∧ (loadProgram s prog input).initLen = prog.length ∧ (loadProgram s prog input).rb = 0
      ∧ (loadProgram s prog input).pc = 0 ∧ (loadProgram s prog input).runState = .running
      ∧ (loadProgram s prog input).inQueue = input ∧ (loadProgram s prog input).outLog = []

/-- State.reset is the load of the empty program with no input, and its first step meets the zero word at address 0
(decision D23; that State.reset holds no program and no input is the model's choice, log entries 1 and 2). -/
def Obligations.ResetRunsIntoZeroWord : Prop :=
  State.reset = loadProgram State.reset [] [] ∧ (∀ a : Nat, State.reset.mem.read a = 0)
    ∧ step State.reset = .next (takeFault State.reset (.unknownOpcodeError 0 0))

/-- A run from a restored snapshot goes as the run from the running state it was taken of: the same memory, `rb`, `pc`
and `run_state` after any number of steps, the same input consumed, and the same values emitted, appended to what the
sink has received. The machine `u` it is restored into may be any, with any memory, `rb`, `pc`, `run_state` and sink, PROVIDED its
input source holds what it held at the checkpoint (a restore does not put consumed values back, vector G2 of
95_test_vectors.md) and its parameters are the same (47_host_interface.md section 4; `run_state` and the channels after a
restore are the spec's decision D19; that a snapshot may be restored into another machine is the model's choice, log
entry 16). -/
def Obligations.RestoredMachineRunsIdentically : Prop :=
  ∀ (s u : State) (n : Nat), s.runState = .running → u.inQueue = s.inQueue → u.params = s.params →
    runLoop n (restore u (checkpoint s)) =
      { runLoop n s with outLog := u.outLog ++ (runLoop n s).outLog.drop s.outLog.length }

/-- Restoring the same snapshot again, after any steps, gives the same memory, `rb`, `pc` and `run_state`, and leaves the
channels as the steps left them (47_host_interface.md section 4, decision D19; that the snapshot may be of another
machine is the model's choice, log entry 16). -/
def Obligations.RestoreIsRepeatable : Prop :=
  ∀ (s u : State) (n : Nat),
    restore (runLoop n (restore u (checkpoint s))) (checkpoint s) =
      { restore u (checkpoint s) with
        inQueue := (runLoop n (restore u (checkpoint s))).inQueue,
        outLog := (runLoop n (restore u (checkpoint s))).outLog }

/-- After an `OutOfInputError` the host supplies a value and retries; the machine is then the one before the `input`
instruction, with that value in its source, and if the next pointer is a word the step stores the value and goes on
(47_host_interface.md section 4, decision D14; that a finite width takes any value supplied is the model's choice, log
entry 7). -/
def Obligations.RetryRepeatsTheInput : Prop :=
  ∀ (s t : State) (p v : Int), step s = .next t → t.runState = .faulted (.outOfInputError p) →
    wordFits s.params (s.pc + 2) = true →
    p = s.pc ∧ retry (supplyInput t [v]) = .next (supplyInput s [v])
      ∧ ∃ i d a, fetchInstr s = .ok i ∧ destOf i = some d ∧ writeAddr s d = .ok a
        ∧ step (supplyInput s [v]) = .next { s with mem := s.mem.write a v, pc := s.pc + 2 }

/-- Retry is refused in every other state (decision D14). -/
def Obligations.RetryOnlyAfterOutOfInput : Prop :=
  ∀ s : State, (∀ p, s.runState ≠ .faulted (.outOfInputError p)) →
    retry s = .refused (.retryNotAllowed s.runState)

/-- A run to completion that has ended is the run with any more fuel: the fuel, which is the model's own (log entry 10),
is no limit of the machine; and a machine that is not running refuses it (47_host_interface.md section 3; the refusal is
decision D15). -/
def Obligations.CompletedRunNeedsNoMoreFuel : Prop :=
  ∀ (s t : State) (n k : Nat), runToCompletion n s = .next t → t.runState ≠ .running →
    runToCompletion (n + k) s = .next t ∧ ∀ m : Nat, ∃ r, runToCompletion m t = .refused r

/-- A run to output ends with at most one value pushed, and that value is the one it returns. Where one was pushed, it
ends immediately after the step of the `output` that pushed it, with `pc` past that instruction, and no earlier step had
pushed; where none was, it is the whole run of that fuel: the machine has ended or the fuel has (47_host_interface.md
section 3; the case without output is decision D18, the fuel is the model's, log entry 10). -/
def Obligations.RunToOutputPushesAtMostOne : Prop :=
  ∀ (s t : State) (n : Nat), runToOutput n s = .next t →
    (t = runLoop n s ∧ t.outLog = s.outLog ∧ valuePushed s t = none)
      ∨ ∃ (k : Nat) (v : Int), k < n ∧ t = runLoop (k + 1) s ∧ (∀ j : Nat, j ≤ k → (runLoop j s).outLog = s.outLog)
          ∧ step (runLoop k s) = .next t ∧ opcodeAt (runLoop k s) = 4 ∧ t.pc = (runLoop k s).pc + 2
          ∧ t.outLog = s.outLog ++ [v] ∧ valuePushed s t = some v

/-- Every host operation keeps memory in canonical form, if the snapshot it restores is, which the model does not check
(log entry 16); an operation that is refused gives no new machine (47_host_interface.md section 1; the operations are
those of log entry 11). -/
def Obligations.HostMovesKeepCanonicalMemory : Prop :=
  ∀ (op : HostOp) (s t : State) (r : HostReply), canonicalMemory s →
    (∀ snap, op = .restore snap → Memory.wf snap.mem) → hostMove op s = .done t r → canonicalMemory t
end

