-- ==== Sys2Proof/Laws/Decode.lean ====
section
/-! SUPPORT. Small facts about the digits, the opcode map and the modes (R71 to R74). -/

namespace Sys2Proof

@[simp] theorem modeOfDigit_modeDigit (m : Mode) : modeOfDigit (modeDigit m) = some m := by cases m <;> rfl

@[simp] theorem modeOfDigit_addrModeDigit (m : AddrMode) :
    (modeOfDigit (addrModeDigit m)).bind addrModeOf = some m := by cases m <;> rfl

theorem modeDigit_le (m : Mode) : modeDigit m ≤ 2 := by cases m <;> decide

theorem addrModeDigit_le (m : AddrMode) : addrModeDigit m ≤ 2 := by cases m <;> decide

theorem modeOfDigit_eq_some {n : Nat} {m : Mode} : modeOfDigit n = some m ↔ n = modeDigit m := by
  constructor
  · intro h
    unfold modeOfDigit at h
    split at h <;> simp_all [modeDigit] <;> subst h <;> rfl
  · rintro rfl; simp

theorem modeOfDigit_eq_none {n : Nat} : modeOfDigit n = none ↔ 2 < n := by
  unfold modeOfDigit
  split <;> (simp_all; try omega)

/-- Three modes are accepted exactly when each of the three digits stands for one (R78). -/
theorem decodeModes_ok {f : Fields} {m1 m2 m3 : Mode} (h : decodeModes f = .ok (m1, m2, m3)) :
    modeOfDigit f.m1 = some m1 ∧ modeOfDigit f.m2 = some m2 ∧ modeOfDigit f.m3 = some m3 := by
  unfold decodeModes at h
  generalize modeOfDigit f.m1 = x at h ⊢
  generalize modeOfDigit f.m2 = y at h ⊢
  generalize modeOfDigit f.m3 = z at h ⊢
  cases x <;> cases y <;> cases z <;> simp_all

@[simp] theorem findRow_code (op : Opcode) : findRow op.row.code = some op.row := by cases op <;> rfl

theorem row_op (op : Opcode) : op.row.op = op := by cases op <;> rfl

/-- A row that is found is the row of one of the ten operations, and its code is the one looked up. -/
theorem findRow_some {n : Nat} {r : OpcodeRow} (h : findRow n = some r) : r = r.op.row ∧ r.code = n := by
  have hm := List.mem_of_find?_eq_some h
  have hc := List.find?_some h
  refine ⟨?_, by simpa using hc⟩
  simp only [opcodeTable, List.mem_cons, List.not_mem_nil, or_false] at hm
  rcases hm with rfl | rfl | rfl | rfl | rfl | rfl | rfl | rfl | rfl | rfl <;> rfl

theorem row_code_lt (op : Opcode) : op.row.code < 100 := by cases op <;> decide

/-- The fields of an encoded instruction are digits. -/
theorem fields_bounds (i : Instr) :
    i.fields.opcode < 100 ∧ i.fields.m1 ≤ 2 ∧ i.fields.m2 ≤ 2 ∧ i.fields.m3 ≤ 2 := by
  refine ⟨row_code_lt _, ?_⟩
  cases i <;> simp [Instr.fields, Instr.modeDigits, modeDigit_le, addrModeDigit_le]

/-- What an accepted word and the fields of its instruction are (R71, R78, R79): the word is not negative, its digits are
the instruction's, and the operand words are still 0. -/
theorem decodeWord_ok {iw : Int} {i : Instr} (h : decodeWord iw = .ok i) :
    0 ≤ iw ∧ i.fields = decodeFields iw.toNat ∧ i.withOperands 0 0 0 = i := by
  unfold decodeWord at h
  split at h
  · exact nomatch h
  rename_i hn
  refine ⟨by omega, ?_⟩
  simp only at h
  split at h
  · exact nomatch h
  rename_i row hrow
  obtain ⟨hr, hc⟩ := findRow_some hrow
  split at h
  · exact nomatch h
  rename_i m1 m2 m3 hm
  obtain ⟨e1, e2, e3⟩ := decodeModes_ok hm
  rw [modeOfDigit_eq_some] at e1 e2 e3
  have hf : decodeFields iw.toNat = ⟨row.op.row.code, modeDigit m1, modeDigit m2, modeDigit m3⟩ := by
    rw [← e1, ← e2, ← e3, ← hr, hc]
  rw [hf]
  generalize row.op = op at h
  cases op <;> simp only [assemble, withDestMode] at h <;>
    first
    | (cases h; exact ⟨rfl, rfl⟩)
    | (cases m3 <;> simp only [addrModeOf] at h <;> cases h <;> exact ⟨rfl, rfl⟩)
    | (cases m1 <;> simp only [addrModeOf] at h <;> cases h <;> exact ⟨rfl, rfl⟩)

/-- Putting operand words in changes neither the operation nor the modes. -/
@[simp] theorem withOperandList_op (i : Instr) (ws : List Int) : (i.withOperandList ws).op = i.op := by cases i <;> rfl

@[simp] theorem withOperandList_fields (i : Instr) (ws : List Int) : (i.withOperandList ws).fields = i.fields := by
  cases i <;> rfl

theorem operandWords_length (i : Instr) : i.operandWords.length = i.operandCount := by cases i <;> rfl

end Sys2Proof
end

