-- ==== Sys2Proof/Laws/Memory.lean ====
section
/-! SUPPORT. Memory as data: what a write does to a read, that every operation keeps the canonical form, and that a
canonical memory is determined by what it reads (R42, R43, R44). -/

namespace Sys2Proof.Machine

@[simp] theorem Memory.read_nil (a : Nat) : Memory.read [] a = 0 := rfl

theorem Memory.read_cons (k : Nat) (x : Int) (m : Memory) (a : Nat) :
    Memory.read ((k, x) :: m) a = if k = a then x else Memory.read m a := rfl

/-- An address that no cell holds reads 0 (R43). -/
theorem Memory.read_of_not_mem (m : Memory) (a : Nat) (h : ∀ c ∈ m, c.1 ≠ a) : Memory.read m a = 0 := by
  induction m with
  | nil => rfl
  | cons c m ih =>
    obtain ⟨k, x⟩ := c
    have hk : k ≠ a := h (k, x) (by simp)
    rw [Memory.read_cons, if_neg hk]
    exact ih (fun c hc => h c (by simp [hc]))

/-- A listed cell is what its address reads, and anything else reads 0. -/
theorem Memory.read_mem_or_zero (m : Memory) (a : Nat) : (a, Memory.read m a) ∈ m ∨ Memory.read m a = 0 := by
  induction m with
  | nil => exact .inr rfl
  | cons c m ih =>
    obtain ⟨k, x⟩ := c
    rw [Memory.read_cons]
    by_cases hk : k = a
    · subst hk; simp
    · simp only [if_neg hk]
      rcases ih with ih | ih
      · exact .inl (by simp [ih])
      · exact .inr ih

theorem Memory.wf_cons {k : Nat} {x : Int} {m : Memory} :
    Memory.wf ((k, x) :: m) ↔ (∀ c ∈ m, k < c.1) ∧ x ≠ 0 ∧ Memory.wf m := by
  constructor
  · rintro ⟨hp, hz⟩
    rw [List.pairwise_cons] at hp
    exact ⟨hp.1, hz (k, x) (by simp), hp.2, fun c hc => hz c (by simp [hc])⟩
  · rintro ⟨hk, hx, hp, hz⟩
    refine ⟨List.pairwise_cons.2 ⟨hk, hp⟩, fun c hc => ?_⟩
    rcases List.mem_cons.1 hc with rfl | hc
    · exact hx
    · exact hz c hc

/-- Every cell after a write is the one written or an old one (any memory). -/
theorem Memory.mem_write {m : Memory} {a : Nat} {v : Int} {c : Cell} (h : c ∈ Memory.write m a v) :
    c = (a, v) ∨ c ∈ m := by
  induction m with
  | nil =>
    simp only [Memory.write] at h
    split at h <;> simp_all
  | cons d m ih =>
    obtain ⟨k, x⟩ := d
    simp only [Memory.write] at h
    split at h
    · split at h <;> simp_all
    · split at h
      · split at h
        · exact .inr (by simp [h])
        · rcases List.mem_cons.1 h with h | h
          · exact .inl h
          · exact .inr (by simp [h])
      · rcases List.mem_cons.1 h with h | h
        · exact .inr (by simp [h])
        · rcases ih h with h | h
          · exact .inl h
          · exact .inr (by simp [h])

/-- A write changes no other address (R44), in any memory. -/
theorem Memory.read_write_other (m : Memory) {a b : Nat} (v : Int) (h : b ≠ a) :
    Memory.read (Memory.write m a v) b = Memory.read m b := by
  have h' : a ≠ b := fun e => h e.symm
  induction m with
  | nil =>
    simp only [Memory.write]
    split
    · rfl
    · rw [Memory.read_cons, if_neg h']
  | cons d m ih =>
    obtain ⟨k, x⟩ := d
    simp only [Memory.write]
    split
    · split
      · rfl
      · rw [Memory.read_cons a, if_neg h']
    · split
      · rename_i hk
        subst hk
        split
        · rw [Memory.read_cons, if_neg h']
        · rw [Memory.read_cons, Memory.read_cons, if_neg h', if_neg h']
      · rw [Memory.read_cons, Memory.read_cons, ih]

/-- A write is read back (R44), in a memory in canonical form. -/
theorem Memory.read_write_same {m : Memory} (hm : Memory.wf m) (a : Nat) (v : Int) :
    Memory.read (Memory.write m a v) a = v := by
  induction m with
  | nil =>
    simp only [Memory.write]
    split
    · rename_i hv; simp [hv]
    · simp [Memory.read_cons]
  | cons d m ih =>
    obtain ⟨k, x⟩ := d
    obtain ⟨hk, hx, hm'⟩ := Memory.wf_cons.1 hm
    simp only [Memory.write]
    split
    · rename_i hlt
      split
      · rename_i hv
        rw [hv]
        refine Memory.read_of_not_mem _ _ (fun c hc => ?_)
        rcases List.mem_cons.1 hc with rfl | hc
        · exact Nat.ne_of_gt hlt
        · exact Nat.ne_of_gt (Nat.lt_trans hlt (hk c hc))
      · simp [Memory.read_cons]
    · split
      · rename_i _ he
        subst he
        split
        · rename_i hv
          rw [hv]
          exact Memory.read_of_not_mem _ _ (fun c hc => Nat.ne_of_gt (hk c hc))
        · simp [Memory.read_cons]
      · rename_i _ hne
        rw [Memory.read_cons, if_neg (fun e => hne e.symm)]
        exact ih hm'

/-- What a read gives after a write, in one equation. -/
theorem Memory.read_write {m : Memory} (hm : Memory.wf m) (a : Nat) (v : Int) (b : Nat) :
    Memory.read (Memory.write m a v) b = if b = a then v else Memory.read m b := by
  split
  · rename_i h; subst h; exact Memory.read_write_same hm b v
  · rename_i h; exact Memory.read_write_other m v h

/-- A write keeps the canonical form. -/
theorem Memory.write_wf {m : Memory} (hm : Memory.wf m) (a : Nat) (v : Int) : Memory.wf (Memory.write m a v) := by
  induction m with
  | nil =>
    simp only [Memory.write]
    split
    · exact hm
    · rename_i hv; exact Memory.wf_cons.2 ⟨by simp, hv, hm⟩
  | cons d m ih =>
    obtain ⟨k, x⟩ := d
    obtain ⟨hk, hx, hm'⟩ := Memory.wf_cons.1 hm
    simp only [Memory.write]
    split
    · rename_i hlt
      split
      · exact hm
      · rename_i hv
        refine Memory.wf_cons.2 ⟨fun c hc => ?_, hv, hm⟩
        rcases List.mem_cons.1 hc with rfl | hc
        · exact hlt
        · exact Nat.lt_trans hlt (hk c hc)
    · split
      · rename_i _ he
        subst he
        split
        · exact hm'
        · rename_i hv; exact Memory.wf_cons.2 ⟨hk, hv, hm'⟩
      · rename_i hnlt hne
        refine Memory.wf_cons.2 ⟨fun c hc => ?_, hx, ih hm'⟩
        rcases Memory.mem_write hc with rfl | hc
        · simp only; omega
        · exact hk c hc

theorem Memory.cellsFrom_bound (a : Nat) (ws : List Int) : ∀ c ∈ Memory.cellsFrom a ws, a ≤ c.1 := by
  induction ws generalizing a with
  | nil => simp [Memory.cellsFrom]
  | cons w ws ih =>
    intro c hc
    simp only [Memory.cellsFrom] at hc
    split at hc
    · exact Nat.le_of_succ_le (ih (a + 1) c hc)
    · rcases List.mem_cons.1 hc with rfl | hc
      · exact Nat.le_refl a
      · exact Nat.le_of_succ_le (ih (a + 1) c hc)

theorem Memory.cellsFrom_wf (a : Nat) (ws : List Int) : Memory.wf (Memory.cellsFrom a ws) := by
  induction ws generalizing a with
  | nil => exact ⟨List.Pairwise.nil, by simp [Memory.cellsFrom]⟩
  | cons w ws ih =>
    simp only [Memory.cellsFrom]
    split
    · exact ih (a + 1)
    · rename_i hw
      exact Memory.wf_cons.2 ⟨fun c hc => Memory.cellsFrom_bound (a + 1) ws c hc, hw, ih (a + 1)⟩

theorem Memory.read_cellsFrom (a : Nat) (ws : List Int) (i : Nat) :
    Memory.read (Memory.cellsFrom a ws) (a + i) = ws.getD i 0 := by
  induction ws generalizing a i with
  | nil => simp [Memory.cellsFrom]
  | cons w ws ih =>
    simp only [Memory.cellsFrom]
    cases i with
    | zero =>
      split
      · rename_i hw
        rw [Memory.read_of_not_mem]
        · simp [hw]
        · intro c hc
          have := Memory.cellsFrom_bound (a + 1) ws c hc
          omega
      · simp [Memory.read_cons]
    | succ j =>
      have hj : Memory.read (Memory.cellsFrom (a + 1) ws) (a + (j + 1)) = ws.getD j 0 := by
        rw [show a + (j + 1) = a + 1 + j by omega]; exact ih (a + 1) j
      split
      · simpa using hj
      · rw [Memory.read_cons, if_neg (by omega)]
        simpa using hj

/-- The memory a load leaves is canonical. -/
theorem Memory.ofProgram_wf (prog : List Int) : Memory.wf (Memory.ofProgram prog) := Memory.cellsFrom_wf 0 prog

/-- Two canonical memories that read alike at every address are equal data. -/
theorem Memory.ext {m n : Memory} (hm : Memory.wf m) (hn : Memory.wf n)
    (h : ∀ a, Memory.read m a = Memory.read n a) : m = n := by
  induction m generalizing n with
  | nil =>
    cases n with
    | nil => rfl
    | cons d n =>
      obtain ⟨k, x⟩ := d
      have := h k
      simp only [Memory.read_nil, Memory.read_cons, if_true] at this
      exact absurd this.symm (Memory.wf_cons.1 hn).2.1
  | cons c m ih =>
    obtain ⟨k, x⟩ := c
    obtain ⟨hk, hx, hm'⟩ := Memory.wf_cons.1 hm
    cases n with
    | nil =>
      have := h k
      simp only [Memory.read_nil, Memory.read_cons, if_true] at this
      exact absurd this hx
    | cons d n =>
      obtain ⟨l, y⟩ := d
      obtain ⟨hl, hy, hn'⟩ := Memory.wf_cons.1 hn
      have hkl : k = l := by
        rcases Nat.lt_trichotomy k l with hlt | he | hlt
        · have hz := h k
          rw [Memory.read_cons, if_pos rfl, Memory.read_of_not_mem] at hz
          · exact absurd hz hx
          · intro c hc
            rcases List.mem_cons.1 hc with rfl | hc
            · exact Nat.ne_of_gt hlt
            · exact Nat.ne_of_gt (Nat.lt_trans hlt (hl c hc))
        · exact he
        · have hz := h l
          rw [Memory.read_cons l, if_pos rfl, Memory.read_of_not_mem] at hz
          · exact absurd hz.symm hy
          · intro c hc
            rcases List.mem_cons.1 hc with rfl | hc
            · exact Nat.ne_of_gt hlt
            · exact Nat.ne_of_gt (Nat.lt_trans hlt (hk c hc))
      subst hkl
      have hxy : x = y := by
        have := h k
        simpa [Memory.read_cons] using this
      subst hxy
      have : m = n := by
        refine ih hm' hn' (fun a => ?_)
        by_cases ha : k = a
        · subst ha
          rw [Memory.read_of_not_mem m k (fun c hc => Nat.ne_of_gt (hk c hc)),
            Memory.read_of_not_mem n k (fun c hc => Nat.ne_of_gt (hl c hc))]
        · have := h a
          rwa [Memory.read_cons, Memory.read_cons, if_neg ha, if_neg ha] at this
      rw [this]

end Sys2Proof.Machine
end

