-- ==== Sys2Proof/Laws/State.lean ====
section
/-! SUPPORT. One lemma per field for each named update of the state, true by rfl, so that no proof unfolds an update. -/

namespace Sys2Proof.Machine

variable (s : State)

@[simp] theorem storeAt_mem (a : Nat) (v : Int) : (storeAt s a v).mem = s.mem.write a v := rfl
@[simp] theorem storeAt_initLen (a : Nat) (v : Int) : (storeAt s a v).initLen = s.initLen := rfl
@[simp] theorem storeAt_rb (a : Nat) (v : Int) : (storeAt s a v).rb = s.rb := rfl
@[simp] theorem storeAt_pc (a : Nat) (v : Int) : (storeAt s a v).pc = s.pc := rfl
@[simp] theorem storeAt_runState (a : Nat) (v : Int) : (storeAt s a v).runState = s.runState := rfl
@[simp] theorem storeAt_inQueue (a : Nat) (v : Int) : (storeAt s a v).inQueue = s.inQueue := rfl
@[simp] theorem storeAt_outLog (a : Nat) (v : Int) : (storeAt s a v).outLog = s.outLog := rfl
@[simp] theorem storeAt_params (a : Nat) (v : Int) : (storeAt s a v).params = s.params := rfl

@[simp] theorem outPush_mem (v : Int) : (outPush s v).mem = s.mem := rfl
@[simp] theorem outPush_initLen (v : Int) : (outPush s v).initLen = s.initLen := rfl
@[simp] theorem outPush_rb (v : Int) : (outPush s v).rb = s.rb := rfl
@[simp] theorem outPush_pc (v : Int) : (outPush s v).pc = s.pc := rfl
@[simp] theorem outPush_runState (v : Int) : (outPush s v).runState = s.runState := rfl
@[simp] theorem outPush_inQueue (v : Int) : (outPush s v).inQueue = s.inQueue := rfl
@[simp] theorem outPush_outLog (v : Int) : (outPush s v).outLog = s.outLog ++ [v] := rfl
@[simp] theorem outPush_params (v : Int) : (outPush s v).params = s.params := rfl

@[simp] theorem takeFault_mem (c : FaultCause) : (takeFault s c).mem = s.mem := rfl
@[simp] theorem takeFault_initLen (c : FaultCause) : (takeFault s c).initLen = s.initLen := rfl
@[simp] theorem takeFault_rb (c : FaultCause) : (takeFault s c).rb = s.rb := rfl
@[simp] theorem takeFault_pc (c : FaultCause) : (takeFault s c).pc = s.pc := rfl
@[simp] theorem takeFault_runState (c : FaultCause) : (takeFault s c).runState = .faulted c := rfl
@[simp] theorem takeFault_inQueue (c : FaultCause) : (takeFault s c).inQueue = s.inQueue := rfl
@[simp] theorem takeFault_outLog (c : FaultCause) : (takeFault s c).outLog = s.outLog := rfl
@[simp] theorem takeFault_params (c : FaultCause) : (takeFault s c).params = s.params := rfl

@[simp] theorem enterHalt_mem : (enterHalt s).mem = s.mem := rfl
@[simp] theorem enterHalt_initLen : (enterHalt s).initLen = s.initLen := rfl
@[simp] theorem enterHalt_rb : (enterHalt s).rb = s.rb := rfl
@[simp] theorem enterHalt_pc : (enterHalt s).pc = s.pc := rfl
@[simp] theorem enterHalt_runState : (enterHalt s).runState = .halted s.pc := rfl
@[simp] theorem enterHalt_inQueue : (enterHalt s).inQueue = s.inQueue := rfl
@[simp] theorem enterHalt_outLog : (enterHalt s).outLog = s.outLog := rfl
@[simp] theorem enterHalt_params : (enterHalt s).params = s.params := rfl

@[simp] theorem supplyInput_mem (vs : List Int) : (supplyInput s vs).mem = s.mem := rfl
@[simp] theorem supplyInput_initLen (vs : List Int) : (supplyInput s vs).initLen = s.initLen := rfl
@[simp] theorem supplyInput_rb (vs : List Int) : (supplyInput s vs).rb = s.rb := rfl
@[simp] theorem supplyInput_pc (vs : List Int) : (supplyInput s vs).pc = s.pc := rfl
@[simp] theorem supplyInput_runState (vs : List Int) : (supplyInput s vs).runState = s.runState := rfl
@[simp] theorem supplyInput_inQueue (vs : List Int) : (supplyInput s vs).inQueue = s.inQueue ++ vs := rfl
@[simp] theorem supplyInput_outLog (vs : List Int) : (supplyInput s vs).outLog = s.outLog := rfl
@[simp] theorem supplyInput_params (vs : List Int) : (supplyInput s vs).params = s.params := rfl

@[simp] theorem restore_mem (snap : Snapshot) : (restore s snap).mem = snap.mem := rfl
@[simp] theorem restore_initLen (snap : Snapshot) : (restore s snap).initLen = snap.initLen := rfl
@[simp] theorem restore_rb (snap : Snapshot) : (restore s snap).rb = snap.rb := rfl
@[simp] theorem restore_pc (snap : Snapshot) : (restore s snap).pc = snap.pc := rfl
@[simp] theorem restore_runState (snap : Snapshot) : (restore s snap).runState = .running := rfl
@[simp] theorem restore_inQueue (snap : Snapshot) : (restore s snap).inQueue = s.inQueue := rfl
@[simp] theorem restore_outLog (snap : Snapshot) : (restore s snap).outLog = s.outLog := rfl
@[simp] theorem restore_params (snap : Snapshot) : (restore s snap).params = s.params := rfl

@[simp] theorem loadProgram_mem (prog input : List Int) : (loadProgram s prog input).mem = Memory.ofProgram prog := rfl
@[simp] theorem loadProgram_initLen (prog input : List Int) : (loadProgram s prog input).initLen = prog.length := rfl
@[simp] theorem loadProgram_rb (prog input : List Int) : (loadProgram s prog input).rb = 0 := rfl
@[simp] theorem loadProgram_pc (prog input : List Int) : (loadProgram s prog input).pc = 0 := rfl
@[simp] theorem loadProgram_runState (prog input : List Int) : (loadProgram s prog input).runState = .running := rfl
@[simp] theorem loadProgram_inQueue (prog input : List Int) : (loadProgram s prog input).inQueue = input := rfl
@[simp] theorem loadProgram_outLog (prog input : List Int) : (loadProgram s prog input).outLog = [] := rfl
@[simp] theorem loadProgram_params (prog input : List Int) : (loadProgram s prog input).params = s.params := rfl

@[simp] theorem checkpoint_mem : (checkpoint s).mem = s.mem := rfl
@[simp] theorem checkpoint_initLen : (checkpoint s).initLen = s.initLen := rfl
@[simp] theorem checkpoint_rb : (checkpoint s).rb = s.rb := rfl
@[simp] theorem checkpoint_pc : (checkpoint s).pc = s.pc := rfl

end Sys2Proof.Machine
end

