-- ==== Sys2Proof/Laws/Ops.lean ====
section
/-! SUPPORT. For each shared operation, what it can do: its value where it succeeds, its fault where it does not, and
the inversion of each shape of instruction. Proofs cite these instead of unfolding the operations. -/

namespace Sys2Proof.Machine

variable {s t : State}

/-! Range tests. -/

@[simp] theorem wordFits_default (v : Int) : wordFits Params.default v = true := rfl

@[simp] theorem addrAdmitted_default (a : Nat) : addrAdmitted Params.default a = true := rfl

theorem wordFits_unbounded {p : Params} (h : p.wordBits = none) (v : Int) : wordFits p v = true := by
  simp [wordFits, h]

theorem addrAdmitted_unbounded {p : Params} (h : p.maxAddr = none) (a : Nat) : addrAdmitted p a = true := by
  simp [addrAdmitted, h]

/-- 0 and 1 are words of every legal width. -/
theorem wordFits_zero_one {p : Params} (h : p.legal) : wordFits p 0 = true ∧ wordFits p 1 = true := by
  unfold wordFits
  cases hw : p.wordBits with
  | none => simp
  | some w =>
    have hp : (2 : Int) ^ 1 ≤ 2 ^ (w - 1) :=
      pow_le_pow_right₀ (by decide) (by have := h w hw; omega)
    simp only [Bool.and_eq_true, decide_eq_true_eq]
    generalize (2 : Int) ^ (w - 1) = b at hp ⊢
    omega

/-! Addresses, reads, sums. -/

theorem checkAddr_ok {addr : Int} (h : addressable s addr) : checkAddr s addr = .ok addr.toNat := by
  simp [checkAddr, not_lt.2 h.1, h.2]

theorem checkAddr_ok_iff {addr : Int} {a : Nat} :
    checkAddr s addr = .ok a ↔ addressable s addr ∧ addr.toNat = a := by
  unfold checkAddr addressable
  split
  · rename_i h
    exact ⟨fun e => (nomatch e), fun ⟨⟨h0, _⟩, _⟩ => absurd h0 (not_le.2 h)⟩
  · split <;> simp_all

theorem memRead_ok {addr : Int} (h : addressable s addr) : memRead s addr = .ok (wordAt s addr) := by
  simp [memRead, checkAddr_ok h, wordAt]

theorem memRead_ok_iff {addr v : Int} : memRead s addr = .ok v ↔ addressable s addr ∧ wordAt s addr = v := by
  unfold memRead
  cases hc : checkAddr s addr with
  | error c =>
    refine ⟨fun h => (nomatch h), fun ⟨h, _⟩ => ?_⟩
    rw [checkAddr_ok h] at hc
    exact nomatch hc
  | ok a =>
    obtain ⟨ha, rfl⟩ := checkAddr_ok_iff.1 hc
    exact ⟨fun e => ⟨ha, Except.ok.inj e⟩, fun ⟨_, e⟩ => congrArg Except.ok e⟩

theorem checkedWord_ok_iff {v w : Int} :
    checkedWord s v = .ok w ↔ wordFits s.params v = true ∧ v = w := by
  unfold checkedWord
  split <;> simp_all

theorem checkedWord_error {v : Int} (h : ¬ wordFits s.params v = true) :
    checkedWord s v = .error (.arithmeticOverflow s.pc) := by
  simp [checkedWord, h]

theorem nextPc_ok {n : Nat} (h : wordFits s.params (s.pc + n) = true) : nextPc s n = .ok (s.pc + n) :=
  checkedWord_ok_iff.2 ⟨h, rfl⟩

theorem nextPc_ok_iff {n : Nat} {w : Int} :
    nextPc s n = .ok w ↔ wordFits s.params (s.pc + n) = true ∧ s.pc + n = w := checkedWord_ok_iff

theorem aluResult_ok_iff {fn : AluFn} {a b v : Int} :
    aluResult s fn a b = .ok v ↔ aluOverflows s.params fn a b = false ∧ alu fn a b = v := by
  unfold aluResult
  split <;> simp_all

/-! The ALU. -/

/-- The comparisons defined through the difference are the exact comparisons (R109, R111, R112). -/
theorem alu_lt (a b : Int) : alu .lt a b = if a < b then 1 else 0 := by
  simp only [alu]; split <;> split <;> omega

theorem alu_eq (a b : Int) : alu .eq a b = if a = b then 1 else 0 := by
  simp only [alu]; split <;> split <;> omega

/-- A result that does not overflow is a word (R114). -/
theorem alu_fits {p : Params} (hp : p.legal) {fn : AluFn} {a b : Int} (h : aluOverflows p fn a b = false) :
    wordFits p (alu fn a b) = true := by
  cases fn with
  | add => simpa [aluOverflows] using h
  | sub => simpa [aluOverflows] using h
  | mul => simpa [aluOverflows] using h
  | lt => rw [alu_lt]; split <;> simp [wordFits_zero_one hp]
  | eq => rw [alu_eq]; split <;> simp [wordFits_zero_one hp]

/-! Operands. -/

theorem effectiveAddr_ok {m : AddrMode} {raw : Int} (h : m = .relative → wordFits s.params (s.rb + raw) = true) :
    effectiveAddr s m raw = .ok (exactAddr s m raw) := by
  cases m with
  | position => rfl
  | relative => exact checkedWord_ok_iff.2 ⟨h rfl, rfl⟩

theorem effectiveAddr_error {raw : Int} (h : ¬ wordFits s.params (s.rb + raw) = true) :
    effectiveAddr s .relative raw = .error (.arithmeticOverflow s.pc) := checkedWord_error h

theorem readVia_ok {m : AddrMode} {raw : Int} (h : reaches s m raw) :
    readVia s m raw = .ok (wordAt s (exactAddr s m raw)) := by
  simp [readVia, effectiveAddr_ok h.1, memRead_ok h.2]

/-- The fault of an access that is not possible, at the check of its address. -/
theorem checkAddr_error {m : AddrMode} {raw : Int} (hm : m = .relative → wordFits s.params (s.rb + raw) = true)
    (h : ¬ reaches s m raw) : checkAddr s (exactAddr s m raw) = .error (accessFault s m raw) := by
  have hov : ¬ (m = .relative ∧ wordFits s.params (s.rb + raw) = false) := by
    rintro ⟨h1, h2⟩; rw [hm h1] at h2; exact nomatch h2
  have ha : ¬ addressable s (exactAddr s m raw) := fun ha => h ⟨hm, ha⟩
  unfold checkAddr accessFault
  rw [if_neg hov]
  split
  · rfl
  · rename_i hn
    have : addrAdmitted s.params (exactAddr s m raw).toNat ≠ true := fun he => ha ⟨not_lt.1 hn, he⟩
    simp [this]

theorem readVia_error {m : AddrMode} {raw : Int} (h : ¬ reaches s m raw) :
    readVia s m raw = .error (accessFault s m raw) := by
  by_cases hm : m = .relative → wordFits s.params (s.rb + raw) = true
  · simp [readVia, effectiveAddr_ok hm, memRead, checkAddr_error hm h]
  · obtain ⟨rfl, hf⟩ := Classical.not_imp.1 hm
    simp [readVia, effectiveAddr_error hf, accessFault, hf]

theorem readOperand_ok {o : Operand} (h : readable s o) : readOperand s o = .ok (operandValue s o) := by
  obtain ⟨m, raw⟩ := o
  cases m with
  | position => exact readVia_ok (h .position rfl)
  | immediate => rfl
  | relative => exact readVia_ok (h .relative rfl)

theorem readOperand_error {o : Operand} {m : AddrMode} (hm : addrModeOf o.mode = some m) (h : ¬ reaches s m o.raw) :
    readOperand s o = .error (accessFault s m o.raw) := by
  obtain ⟨mode, raw⟩ := o
  cases mode with
  | position => cases hm; exact readVia_error h
  | immediate => exact nomatch hm
  | relative => cases hm; exact readVia_error h

/-- Everything `ReadOperand` can do. -/
theorem readOperand_cases (s : State) (o : Operand) :
    (readable s o ∧ readOperand s o = .ok (operandValue s o)) ∨
    (∃ m, addrModeOf o.mode = some m ∧ ¬ reaches s m o.raw ∧ readOperand s o = .error (accessFault s m o.raw)) := by
  by_cases h : readable s o
  · exact .inl ⟨h, readOperand_ok h⟩
  · right
    simp only [readable, not_forall] at h
    obtain ⟨m, hm, hr⟩ := h
    exact ⟨m, hm, hr, readOperand_error hm hr⟩

theorem readOperand_ok_iff {o : Operand} {v : Int} :
    readOperand s o = .ok v ↔ readable s o ∧ operandValue s o = v := by
  rcases readOperand_cases s o with ⟨h, e⟩ | ⟨m, hm, hr, e⟩
  · rw [e]
    exact ⟨fun e' => ⟨h, Except.ok.inj e'⟩, fun ⟨_, e'⟩ => congrArg Except.ok e'⟩
  · rw [e]
    exact ⟨fun h => (nomatch h), fun ⟨h, _⟩ => absurd (h m hm) hr⟩

theorem writeAddr_ok {d : Dest} (h : writable s d) : writeAddr s d = .ok (destAddress s d) := by
  simp [writeAddr, effectiveAddr_ok h.1, checkAddr_ok h.2, destAddress]

theorem writeAddr_error {d : Dest} (h : ¬ writable s d) : writeAddr s d = .error (accessFault s d.mode d.raw) := by
  by_cases hm : d.mode = .relative → wordFits s.params (s.rb + d.raw) = true
  · simp [writeAddr, effectiveAddr_ok hm, checkAddr_error hm h]
  · obtain ⟨hr, hf⟩ := Classical.not_imp.1 hm
    unfold writeAddr accessFault
    rw [hr, effectiveAddr_error hf]
    simp [hf]

theorem writeAddr_ok_iff {d : Dest} {a : Nat} : writeAddr s d = .ok a ↔ writable s d ∧ destAddress s d = a := by
  by_cases h : writable s d
  · rw [writeAddr_ok h]
    exact ⟨fun e => ⟨h, Except.ok.inj e⟩, fun ⟨_, e⟩ => congrArg Except.ok e⟩
  · rw [writeAddr_error h]
    exact ⟨fun e => (nomatch e), fun ⟨h', _⟩ => absurd h' h⟩

/-! Ends of a step. -/

@[simp] theorem finish_ok : finish s (.ok t) = .next t := rfl

@[simp] theorem finish_error (c : FaultCause) : finish s (.error c) = .next (takeFault s c) := rfl

theorem finish_next {r : Except FaultCause State} (h : finish s r = .next t) :
    r = .ok t ∨ ∃ c, r = .error c ∧ t = takeFault s c := by
  cases r with
  | ok u => cases h; exact .inl rfl
  | error c => cases h; exact .inr ⟨c, rfl, rfl⟩

theorem bind_ok {α β : Type} {x : Except FaultCause α} {f : α → Except FaultCause β} {y : β} (h : (x >>= f) = .ok y) :
    ∃ a, x = .ok a ∧ f a = .ok y := by
  cases x with
  | error c => exact nomatch h
  | ok a => exact ⟨a, rfl, h⟩

@[simp] theorem ok_bind {α β : Type} (a : α) (f : α → Except FaultCause β) : (Except.ok a >>= f) = f a := rfl

@[simp] theorem error_bind {α β : Type} (c : FaultCause) (f : α → Except FaultCause β) :
    ((Except.error c : Except FaultCause α) >>= f) = .error c := rfl

/-! Inversion of each shape of instruction. -/

theorem aluToMemory_ok {fn : AluFn} {a b : Operand} {d : Dest} (h : aluToMemory fn a b d s = .ok t) :
    readable s a ∧ readable s b ∧ writable s d
      ∧ aluOverflows s.params fn (operandValue s a) (operandValue s b) = false
      ∧ wordFits s.params (s.pc + 4) = true
      ∧ t = { storeAt s (destAddress s d) (alu fn (operandValue s a) (operandValue s b)) with pc := s.pc + 4 } := by
  obtain ⟨x, hx, h⟩ := bind_ok h
  obtain ⟨y, hy, h⟩ := bind_ok h
  obtain ⟨ad, had, h⟩ := bind_ok h
  obtain ⟨v, hv, h⟩ := bind_ok h
  obtain ⟨n, hn, h⟩ := bind_ok h
  obtain ⟨ha, rfl⟩ := readOperand_ok_iff.1 hx
  obtain ⟨hb, rfl⟩ := readOperand_ok_iff.1 hy
  obtain ⟨hd, rfl⟩ := writeAddr_ok_iff.1 had
  obtain ⟨ho, rfl⟩ := aluResult_ok_iff.1 hv
  obtain ⟨hf, rfl⟩ := nextPc_ok_iff.1 hn
  cases h
  exact ⟨ha, hb, hd, ho, hf, rfl⟩

theorem jumpWhen_ok {z : Int} {a g : Operand} (h : jumpWhen z a g s = .ok t) :
    readable s a ∧ readable s g ∧
      ((alu .eq (operandValue s a) 0 = z ∧ t = { s with pc := operandValue s g }) ∨
       (alu .eq (operandValue s a) 0 ≠ z ∧ wordFits s.params (s.pc + 3) = true ∧ t = { s with pc := s.pc + 3 })) := by
  obtain ⟨x, hx, h⟩ := bind_ok h
  obtain ⟨y, hy, h⟩ := bind_ok h
  obtain ⟨ha, rfl⟩ := readOperand_ok_iff.1 hx
  obtain ⟨hg, rfl⟩ := readOperand_ok_iff.1 hy
  refine ⟨ha, hg, ?_⟩
  split at h
  · rename_i hz; cases h; exact .inl ⟨hz, rfl⟩
  · rename_i hz
    obtain ⟨n, hn, h⟩ := bind_ok h
    obtain ⟨hf, rfl⟩ := nextPc_ok_iff.1 hn
    cases h
    exact .inr ⟨hz, hf, rfl⟩

theorem execInput_next {d : Dest} (h : execInput d s = .next t) :
    (∃ c, t = takeFault s c) ∨
    (∃ v rest, writable s d ∧ s.inQueue = v :: rest ∧ wordFits s.params (s.pc + 2) = true ∧
      t = { storeAt { s with inQueue := rest } (destAddress s d) v with pc := s.pc + 2 }) := by
  rcases finish_next h with h | ⟨c, -, rfl⟩
  · obtain ⟨ad, had, h⟩ := bind_ok h
    obtain ⟨hd, rfl⟩ := writeAddr_ok_iff.1 had
    cases hq : s.inQueue with
    | nil => simp [inPoll, hq] at h
    | cons v rest =>
      simp only [inPoll, hq] at h
      obtain ⟨n, hn, h⟩ := bind_ok h
      obtain ⟨hf, rfl⟩ := nextPc_ok_iff.1 hn
      cases h
      exact .inr ⟨v, rest, hd, rfl, hf, rfl⟩
  · exact .inl ⟨c, rfl⟩

theorem execOutput_next {a : Operand} (h : execOutput a s = .next t) :
    (∃ c, t = takeFault s c) ∨
    (readable s a ∧ wordFits s.params (s.pc + 2) = true ∧
      t = { outPush s (operandValue s a) with pc := s.pc + 2 }) := by
  rcases finish_next h with h | ⟨c, -, rfl⟩
  · obtain ⟨x, hx, h⟩ := bind_ok h
    obtain ⟨ha, rfl⟩ := readOperand_ok_iff.1 hx
    obtain ⟨n, hn, h⟩ := bind_ok h
    obtain ⟨hf, rfl⟩ := nextPc_ok_iff.1 hn
    cases h
    exact .inr ⟨ha, hf, rfl⟩
  · exact .inl ⟨c, rfl⟩

theorem execAdjustBase_next {a : Operand} (h : execAdjustBase a s = .next t) :
    (∃ c, t = takeFault s c) ∨
    (readable s a ∧ wordFits s.params (s.rb + operandValue s a) = true ∧ wordFits s.params (s.pc + 2) = true ∧
      t = { s with rb := s.rb + operandValue s a, pc := s.pc + 2 }) := by
  rcases finish_next h with h | ⟨c, -, rfl⟩
  · obtain ⟨x, hx, h⟩ := bind_ok h
    obtain ⟨ha, rfl⟩ := readOperand_ok_iff.1 hx
    obtain ⟨v, hv, h⟩ := bind_ok h
    obtain ⟨ho, rfl⟩ := aluResult_ok_iff.1 hv
    obtain ⟨n, hn, h⟩ := bind_ok h
    obtain ⟨hf, rfl⟩ := nextPc_ok_iff.1 hn
    cases h
    exact .inr ⟨ha, by simpa [aluOverflows, alu] using ho, hf, rfl⟩
  · exact .inl ⟨c, rfl⟩

end Sys2Proof.Machine
end

