-- ==== Sys2Proof/Laws/Step.lean ====
section
/-! SUPPORT. Everything `exec` and `step` can do, said once. -/

namespace Sys2Proof.Machine

/-- What an instruction that answers a next state has done: taken a fault, stored a word, consumed and stored an input
value, emitted a value, moved `pc` alone, moved `rb`, or halted. -/
inductive Effect (i : Instr) (s : State) : State → Prop where
  | fault (c : FaultCause) : Effect i s (takeFault s c)
  | store (d : Dest) (v : Int) (hi : i.op ∈ [Opcode.add, .mul, .lessThan, .equals]) (hd : destOf i = some d)
      (hw : writable s d) (hv : s.params.legal → wordFits s.params v = true)
      (hp : wordFits s.params (s.pc + 4) = true) :
      Effect i s { storeAt s (destAddress s d) v with pc := s.pc + 4 }
  | consume (d : Dest) (v : Int) (rest : List Int) (hi : i.op = .input) (hd : destOf i = some d) (hw : writable s d)
      (hq : s.inQueue = v :: rest) (hp : wordFits s.params (s.pc + 2) = true) :
      Effect i s { storeAt { s with inQueue := rest } (destAddress s d) v with pc := s.pc + 2 }
  | emit (a : Operand) (hi : i.op = .output) (ha : readable s a) (hm : a ∈ readOperandsOf i)
      (hp : wordFits s.params (s.pc + 2) = true) :
      Effect i s { outPush s (operandValue s a) with pc := s.pc + 2 }
  | jump (g : Operand) (hi : i.op ∈ [Opcode.jumpIfTrue, .jumpIfFalse]) (hg : readable s g)
      (hm : g ∈ readOperandsOf i) : Effect i s { s with pc := operandValue s g }
  | fallThrough (hi : i.op ∈ [Opcode.jumpIfTrue, .jumpIfFalse]) (hp : wordFits s.params (s.pc + 3) = true) :
      Effect i s { s with pc := s.pc + 3 }
  | rebase (a : Operand) (hi : i.op = .adjustBase) (ha : readable s a) (hm : a ∈ readOperandsOf i)
      (hr : wordFits s.params (s.rb + operandValue s a) = true) (hp : wordFits s.params (s.pc + 2) = true) :
      Effect i s { s with rb := s.rb + operandValue s a, pc := s.pc + 2 }
  | halt (hi : i.op = .halt) : Effect i s (enterHalt s)

/-- The store shape as an effect. -/
theorem effect_of_aluToMemory {i : Instr} {s t : State} {fn : AluFn} {a b : Operand} {d : Dest}
    (hi : i.op ∈ [Opcode.add, .mul, .lessThan, .equals]) (hd : destOf i = some d)
    (h : finish s (aluToMemory fn a b d s) = .next t) : Effect i s t := by
  rcases finish_next h with h | ⟨c, -, rfl⟩
  · obtain ⟨-, -, hw, ho, hp, rfl⟩ := aluToMemory_ok h
    exact .store d _ hi hd hw (fun hl => alu_fits hl ho) hp
  · exact .fault c

/-- The jump shape as an effect. -/
theorem effect_of_jumpWhen {i : Instr} {s t : State} {z : Int} {a g : Operand}
    (hi : i.op ∈ [Opcode.jumpIfTrue, .jumpIfFalse]) (hm : g ∈ readOperandsOf i)
    (h : finish s (jumpWhen z a g s) = .next t) : Effect i s t := by
  rcases finish_next h with h | ⟨c, -, rfl⟩
  · obtain ⟨-, hg, ⟨-, rfl⟩ | ⟨-, hp, rfl⟩⟩ := jumpWhen_ok h
    · exact .jump g hi hg hm
    · exact .fallThrough hi hp
  · exact .fault c

/-- Every next state of `exec` is one of the effects. -/
theorem exec_effect {i : Instr} {s t : State} (h : exec i s = .next t) : Effect i s t := by
  cases i with
  | add a b d => exact effect_of_aluToMemory (by simp [Instr.op]) rfl h
  | mul a b d => exact effect_of_aluToMemory (by simp [Instr.op]) rfl h
  | lessThan a b d => exact effect_of_aluToMemory (by simp [Instr.op]) rfl h
  | equals a b d => exact effect_of_aluToMemory (by simp [Instr.op]) rfl h
  | input d x2 x3 =>
    rcases execInput_next h with ⟨c, rfl⟩ | ⟨v, rest, hw, hq, hp, rfl⟩
    · exact .fault c
    · exact .consume d v rest rfl rfl hw hq hp
  | output a x2 x3 =>
    rcases execOutput_next h with ⟨c, rfl⟩ | ⟨ha, hp, rfl⟩
    · exact .fault c
    · exact .emit a rfl ha (by simp [readOperandsOf]) hp
  | jumpIfTrue a g x3 => exact effect_of_jumpWhen (by simp [Instr.op]) (by simp [readOperandsOf]) h
  | jumpIfFalse a g x3 => exact effect_of_jumpWhen (by simp [Instr.op]) (by simp [readOperandsOf]) h
  | adjustBase a x2 x3 =>
    rcases execAdjustBase_next h with ⟨c, rfl⟩ | ⟨ha, hr, hp, rfl⟩
    · exact .fault c
    · exact .rebase a rfl ha (by simp [readOperandsOf]) hr hp
  | halt x1 x2 x3 => cases h; exact .halt rfl

/-- The instruction shapes always end in a next state. -/
theorem finish_total (s : State) (r : Except FaultCause State) : ∃ t, finish s r = .next t := by
  cases r with
  | ok t => exact ⟨t, rfl⟩
  | error c => exact ⟨_, rfl⟩

/-- Everything a step can do. -/
theorem step_cases {s t : State} (h : step s = .next t) :
    s.runState = .running ∧
      ((∃ c, fetchInstr s = .error c ∧ t = takeFault s c) ∨ (∃ i, fetchInstr s = .ok i ∧ Effect i s t)) := by
  unfold step at h
  split at h
  · exact nomatch h
  · exact nomatch h
  · rename_i hr
    refine ⟨hr, ?_⟩
    split at h
    · rename_i c hf; cases h; exact .inl ⟨c, hf, rfl⟩
    · rename_i i hf; exact .inr ⟨i, hf, exec_effect h⟩

theorem step_of_fetch {s : State} {i : Instr} (hr : s.runState = .running) (hf : fetchInstr s = .ok i) :
    step s = exec i s := by
  simp [step, hr, hf]

theorem step_of_fetch_error {s : State} {c : FaultCause} (hr : s.runState = .running) (hf : fetchInstr s = .error c) :
    step s = .next (takeFault s c) := by
  simp [step, hr, hf]

/-- Fetching operand words that all exist gives the words of memory (R102). -/
theorem fetchWords_ok {s : State} {addr : Int} (n : Nat) (h : ∀ k : Nat, k < n → addressable s (addr + k)) :
    fetchWords s addr n = .ok ((List.range n).map (fun k : Nat => wordAt s (addr + k))) := by
  induction n generalizing addr with
  | zero => rfl
  | succ n ih =>
    have h0 : addressable s addr := by simpa using h 0 (by omega)
    have hs : ∀ k : Nat, k < n → addressable s (addr + 1 + k) := by
      intro k hk
      have := h (k + 1) (by omega)
      rwa [show addr + ((k + 1 : Nat) : Int) = addr + 1 + k by push_cast; ring] at this
    simp only [fetchWords, memRead_ok h0, ih hs]
    rw [List.range_succ_eq_map]
    simp only [List.map_cons, List.map_map, Nat.cast_zero, add_zero]
    congr 2
    refine List.map_congr_left (fun k _ => ?_)
    simp only [Function.comp_apply, Nat.cast_succ]
    congr 1
    ring

/-- Fetching operand words faults with the first word that cannot be read (R102; log entry 5). -/
theorem fetchWords_first_error {s : State} {addr : Int} {c : FaultCause} {n k : Nat} (hk : k < n)
    (h : ∀ j : Nat, j < k → addressable s (addr + j)) (hc : memRead s (addr + k) = .error c) :
    fetchWords s addr n = .error c := by
  induction k generalizing addr n with
  | zero =>
    obtain ⟨m, rfl⟩ : ∃ m, n = m + 1 := ⟨n - 1, by omega⟩
    rw [Nat.cast_zero, add_zero] at hc
    simp only [fetchWords, hc]
  | succ k ih =>
    obtain ⟨m, rfl⟩ : ∃ m, n = m + 1 := ⟨n - 1, by omega⟩
    have h0 : addressable s addr := by simpa using h 0 (by omega)
    have hs : ∀ j : Nat, addr + ((j + 1 : Nat) : Int) = addr + 1 + j := fun j => by push_cast; ring
    simp only [fetchWords, memRead_ok h0]
    rw [ih (by omega) (fun j hj => hs j ▸ h (j + 1) (by omega)) (hs k ▸ hc)]

/-- What a fetched instruction comes from (R100, phases 1 to 6): the word at `pc`, accepted, with the operand words after
it. -/
theorem fetchInstr_ok {s : State} {i : Instr} (h : fetchInstr s = .ok i) :
    addressable s s.pc ∧ ∃ j ws, decodeWord (wordAt s s.pc) = .ok j
      ∧ fetchWords s (s.pc + 1) j.operandCount = .ok ws ∧ i = j.withOperandList ws := by
  unfold fetchInstr at h
  split at h
  · exact nomatch h
  rename_i iw hiw
  obtain ⟨ha, rfl⟩ := memRead_ok_iff.1 hiw
  split at h
  · exact nomatch h
  rename_i j hj
  split at h
  · exact nomatch h
  rename_i ws hws
  cases h
  exact ⟨ha, j, ws, hj, hws, rfl⟩

/-- The opcode digits at `pc` are the fetched instruction's. -/
theorem opcodeAt_of_fetch {s : State} {i : Instr} (h : fetchInstr s = .ok i) : opcodeAt s = i.op.row.code := by
  obtain ⟨-, j, ws, hj, -, rfl⟩ := fetchInstr_ok h
  obtain ⟨-, hf, -⟩ := decodeWord_ok hj
  have : j.fields.opcode = (decodeFields (wordAt s s.pc).toNat).opcode := by rw [hf]
  rw [withOperandList_op]
  exact this.symm

end Sys2Proof.Machine
end

