-- ==== Sys2Proof/Laws/Faults.lean ====
section
/-! SUPPORT. Which faults an operation can raise, said once (R222 to R227). -/

namespace Sys2Proof.Machine

variable {s t : State} {c : FaultCause}

theorem bind_error {α β : Type} {x : Except FaultCause α} {f : α → Except FaultCause β} (h : (x >>= f) = .error c) :
    x = .error c ∨ ∃ a, x = .ok a ∧ f a = .error c := by
  cases x with
  | error e => exact .inl (by simpa using h)
  | ok a => exact .inr ⟨a, rfl, h⟩

theorem memRead_error {a : Int} (h : memRead s a = .error c) :
    (a < 0 ∧ c = .addressError a) ∨ (0 ≤ a ∧ c = .aboveMaxAddr a ∧ s.params.maxAddr ≠ none) := by
  unfold memRead at h
  split at h
  · rename_i e hc
    cases h
    unfold checkAddr at hc
    split at hc
    · cases hc; exact .inl ⟨by assumption, rfl⟩
    · split at hc
      · exact nomatch hc
      · rename_i hn hf
        cases hc
        exact .inr ⟨by omega, rfl, fun e => hf (addrAdmitted_unbounded e _)⟩
  · exact nomatch h

theorem fetchWords_error {a : Int} {n : Nat} (h0 : 0 ≤ a) (h : fetchWords s a n = .error c) :
    ∃ x, c = .aboveMaxAddr x ∧ s.params.maxAddr ≠ none := by
  induction n generalizing a with
  | zero => exact nomatch h
  | succ n ih =>
    simp only [fetchWords] at h
    split at h
    · rename_i hm
      cases h
      rcases memRead_error hm with ⟨h, _⟩ | ⟨_, h, h'⟩
      · omega
      · exact ⟨_, h, h'⟩
    · split at h
      · rename_i hf; cases h; exact ih (by omega) hf
      · exact nomatch h

/-- The faults of phases 1 to 6 (R100, R101, R223, R225). -/
theorem fetchInstr_error (h : fetchInstr s = .error c) :
    (s.pc < 0 ∧ c = .addressError s.pc) ∨ (∃ x, c = .aboveMaxAddr x ∧ s.params.maxAddr ≠ none)
      ∨ (∃ o p, c = .unknownOpcodeError o p) ∨ (∃ w p k, c = .invalidModeError w p k) := by
  unfold fetchInstr at h
  split at h
  · rename_i hm
    cases h
    rcases memRead_error hm with h | h
    · exact .inl h
    · exact .inr (.inl ⟨_, h.2⟩)
  · rename_i iw hm
    split at h
    · rename_i e he
      cases h
      cases e
      · exact .inr (.inr (.inl ⟨_, _, rfl⟩))
      · exact .inr (.inr (.inl ⟨_, _, rfl⟩))
      · exact .inr (.inr (.inr ⟨_, _, _, rfl⟩))
    · split at h
      · rename_i hf
        cases h
        have h0 := (memRead_ok_iff.1 hm).1.1
        exact .inr (.inl (fetchWords_error (by omega) hf))
      · exact nomatch h

/-- The three faults of an access that is not possible. -/
theorem accessFault_cases {m : AddrMode} {raw : Int} (h : ¬ reaches s m raw) :
    (accessFault s m raw = .arithmeticOverflow s.pc ∧ s.params.wordBits ≠ none)
      ∨ (exactAddr s m raw < 0 ∧ accessFault s m raw = .addressError (exactAddr s m raw))
      ∨ (accessFault s m raw = .aboveMaxAddr (exactAddr s m raw) ∧ s.params.maxAddr ≠ none) := by
  unfold accessFault
  split
  · rename_i h1
    refine .inl ⟨rfl, fun e => ?_⟩
    rw [wordFits_unbounded e] at h1
    exact nomatch h1.2
  · rename_i h1
    split
    · rename_i h2; exact .inr (.inl ⟨h2, rfl⟩)
    · rename_i h2
      refine .inr (.inr ⟨rfl, fun e => h ⟨fun hm => ?_, by omega, addrAdmitted_unbounded e _⟩⟩)
      by_contra hc
      exact h1 ⟨hm, by simpa using hc⟩

/-- What an executing instruction can raise: the fault of one of its accesses, an overflow, or an empty source. -/
inductive Raises (i : Instr) (s : State) : FaultCause → Prop where
  | access (m : AddrMode) (raw : Int) (h : ¬ reaches s m raw) (hm : exactAddr s m raw ∈ operandAddrs s i) :
      Raises i s (accessFault s m raw)
  | overflow (hw : s.params.wordBits ≠ none) : Raises i s (.arithmeticOverflow s.pc)
  | empty (hi : i.op = .input) (hq : s.inQueue = []) (d : Dest) (hd : destOf i = some d) (hw : writable s d) :
      Raises i s (.outOfInputError s.pc)

theorem raises_of_checkedWord {i : Instr} {v : Int} (h : checkedWord s v = .error c) : Raises i s c := by
  unfold checkedWord at h
  split at h
  · exact nomatch h
  · rename_i hf; cases h; exact .overflow (fun e => hf (wordFits_unbounded e _))

theorem raises_of_aluResult {i : Instr} {fn : AluFn} {a b : Int} (h : aluResult s fn a b = .error c) :
    Raises i s c := by
  unfold aluResult at h
  split at h
  · rename_i ho
    cases h
    refine .overflow (fun e => ?_)
    cases fn <;> simp [aluOverflows, wordFits_unbounded e] at ho
  · exact nomatch h

theorem raises_of_readOperand {i : Instr} {o : Operand} (ho : o ∈ readOperandsOf i) (h : readOperand s o = .error c) :
    Raises i s c := by
  rcases readOperand_cases s o with ⟨_, e⟩ | ⟨m, hm, hr, e⟩
  · rw [e] at h; exact nomatch h
  · rw [e] at h
    cases h
    refine .access m o.raw hr (List.mem_append.2 (.inl (List.mem_filterMap.2 ⟨o, ho, by simp [hm]⟩)))

theorem raises_of_writeAddr {i : Instr} {d : Dest} (hd : destOf i = some d) (h : writeAddr s d = .error c) :
    Raises i s c := by
  by_cases hw : writable s d
  · rw [writeAddr_ok hw] at h; exact nomatch h
  · rw [writeAddr_error hw] at h
    cases h
    exact .access _ _ hw (by simp [operandAddrs, hd])

theorem raises_of_aluToMemory {i : Instr} {fn : AluFn} {a b : Operand} {d : Dest} (ha : a ∈ readOperandsOf i)
    (hb : b ∈ readOperandsOf i) (hd : destOf i = some d) (h : aluToMemory fn a b d s = .error c) : Raises i s c := by
  rcases bind_error h with h | ⟨_, _, h⟩
  · exact raises_of_readOperand ha h
  rcases bind_error h with h | ⟨_, _, h⟩
  · exact raises_of_readOperand hb h
  rcases bind_error h with h | ⟨_, _, h⟩
  · exact raises_of_writeAddr hd h
  rcases bind_error h with h | ⟨_, _, h⟩
  · exact raises_of_aluResult h
  rcases bind_error h with h | ⟨_, _, h⟩
  · exact raises_of_checkedWord h
  exact nomatch h

theorem raises_of_jumpWhen {i : Instr} {z : Int} {a g : Operand} (ha : a ∈ readOperandsOf i)
    (hg : g ∈ readOperandsOf i) (h : jumpWhen z a g s = .error c) : Raises i s c := by
  rcases bind_error h with h | ⟨_, _, h⟩
  · exact raises_of_readOperand ha h
  rcases bind_error h with h | ⟨_, _, h⟩
  · exact raises_of_readOperand hg h
  split at h
  · exact nomatch h
  rcases bind_error h with h | ⟨_, _, h⟩
  · exact raises_of_checkedWord h
  exact nomatch h

/-- A shape that keeps the machine running where it succeeds ends faulted only by its own fault. -/
theorem finish_faulted {r : Except FaultCause State} (ho : ∀ u, r = .ok u → u.runState = .running)
    (h : finish s r = .next t) (ht : t.runState = .faulted c) : r = .error c := by
  rcases finish_next h with h' | ⟨e, h', rfl⟩
  · rw [ho _ h'] at ht; exact nomatch ht
  · cases ht; exact h'

/-- Everything an instruction can raise (R227). -/
theorem exec_raises {i : Instr} (hr : s.runState = .running) (h : exec i s = .next t) (ht : t.runState = .faulted c) :
    Raises i s c := by
  have alu : ∀ fn a b d u, aluToMemory fn a b d s = .ok u → u.runState = .running := by
    intro fn a b d u hu
    obtain ⟨-, -, -, -, -, rfl⟩ := aluToMemory_ok hu
    exact hr
  have jmp : ∀ z a g u, jumpWhen z a g s = .ok u → u.runState = .running := by
    intro z a g u hu
    obtain ⟨-, -, ⟨-, rfl⟩ | ⟨-, -, rfl⟩⟩ := jumpWhen_ok hu <;> exact hr
  cases i with
  | add a b d =>
    exact raises_of_aluToMemory (by simp [readOperandsOf]) (by simp [readOperandsOf]) rfl (finish_faulted (alu _ _ _ _) h ht)
  | mul a b d =>
    exact raises_of_aluToMemory (by simp [readOperandsOf]) (by simp [readOperandsOf]) rfl (finish_faulted (alu _ _ _ _) h ht)
  | lessThan a b d =>
    exact raises_of_aluToMemory (by simp [readOperandsOf]) (by simp [readOperandsOf]) rfl (finish_faulted (alu _ _ _ _) h ht)
  | equals a b d =>
    exact raises_of_aluToMemory (by simp [readOperandsOf]) (by simp [readOperandsOf]) rfl (finish_faulted (alu _ _ _ _) h ht)
  | jumpIfTrue a g x3 =>
    exact raises_of_jumpWhen (by simp [readOperandsOf]) (by simp [readOperandsOf]) (finish_faulted (jmp _ _ _) h ht)
  | jumpIfFalse a g x3 =>
    exact raises_of_jumpWhen (by simp [readOperandsOf]) (by simp [readOperandsOf]) (finish_faulted (jmp _ _ _) h ht)
  | halt x1 x2 x3 => cases h; exact nomatch ht
  | input d x2 x3 =>
    rcases finish_next h with h | ⟨e, h', rfl⟩
    · obtain ⟨_, _, h⟩ := bind_ok h
      cases hq : s.inQueue <;> simp only [inPoll, hq] at h
      · exact nomatch h
      · obtain ⟨_, _, h⟩ := bind_ok h
        cases h; simp [hr] at ht
    · cases ht
      rcases bind_error h' with h | ⟨_, hw, h⟩
      · exact raises_of_writeAddr rfl h
      cases hq : s.inQueue <;> simp only [inPoll, hq] at h
      · cases h; exact .empty rfl hq d rfl (writeAddr_ok_iff.1 hw).1
      · rcases bind_error h with h | ⟨_, _, h⟩
        · exact raises_of_checkedWord h
        exact nomatch h
  | output a x2 x3 =>
    rcases finish_next h with h | ⟨e, h', rfl⟩
    · obtain ⟨_, _, h⟩ := bind_ok h
      obtain ⟨_, _, h⟩ := bind_ok h
      cases h; simp [hr] at ht
    · cases ht
      rcases bind_error h' with h | ⟨_, _, h⟩
      · exact raises_of_readOperand (by simp [readOperandsOf]) h
      rcases bind_error h with h | ⟨_, _, h⟩
      · exact raises_of_checkedWord h
      exact nomatch h
  | adjustBase a x2 x3 =>
    rcases finish_next h with h | ⟨e, h', rfl⟩
    · obtain ⟨_, _, h⟩ := bind_ok h
      obtain ⟨_, _, h⟩ := bind_ok h
      obtain ⟨_, _, h⟩ := bind_ok h
      cases h; simp [hr] at ht
    · cases ht
      rcases bind_error h' with h | ⟨_, _, h⟩
      · exact raises_of_readOperand (by simp [readOperandsOf]) h
      rcases bind_error h with h | ⟨_, _, h⟩
      · exact raises_of_aluResult h
      rcases bind_error h with h | ⟨_, _, h⟩
      · exact raises_of_checkedWord h
      exact nomatch h

end Sys2Proof.Machine
end

