-- ==== Sys2Proof/Laws/PerInstr.lean ====
section
/-! SUPPORT. Statements made once per constructor of Instr. -/

/-- `RowSelect`: the canonical word of an instruction is one of at most five decimal digits that selects the
instruction's own row of the opcode map, the instruction has the number of words the row gives, and the row's roles say
which slots are operands (R70, R71, R74, R87). -/
def Sys2Proof.Laws.RowSelect.Statement (i : Sys2Proof.Instr) : Prop :=
  0 ≤ Sys2Proof.encodeWord i ∧ Sys2Proof.encodeWord i < 100000
    ∧ Sys2Proof.findRow (Sys2Proof.encodeWord i % 100).toNat = some i.op.row
    ∧ (Sys2Proof.encode i).length = i.op.row.length
    ∧ ([i.op.row.slot1, i.op.row.slot2, i.op.row.slot3].filter (· != .absent)).length = i.operandWords.length

namespace Sys2Proof.Laws

/-- The part of `RowSelect` that is arithmetic on digits, for any instruction. -/
theorem rowSelect_of_length (i : Instr) (hl : (encode i).length = i.op.row.length)
    (hs : ([i.op.row.slot1, i.op.row.slot2, i.op.row.slot3].filter (· != .absent)).length = i.operandWords.length) :
    RowSelect.Statement i := by
  obtain ⟨h0, h1, h2, h3⟩ := fields_bounds i
  have hw : encodeWord i = ((i.fields.opcode + 100 * i.fields.m1 + 1000 * i.fields.m2 + 10000 * i.fields.m3 : Nat) : Int) :=
    rfl
  refine ⟨by omega, by omega, ?_, hl, hs⟩
  have : (encodeWord i % 100).toNat = i.op.row.code := by
    have : i.fields.opcode = i.op.row.code := rfl
    omega
  rw [this, findRow_code]

theorem RowSelect.add (a b : Operand) (d : Dest) : RowSelect.Statement (.add a b d) := rowSelect_of_length _ rfl rfl

theorem RowSelect.mul (a b : Operand) (d : Dest) : RowSelect.Statement (.mul a b d) := rowSelect_of_length _ rfl rfl

theorem RowSelect.input (d : Dest) (x2 x3 : Mode) : RowSelect.Statement (.input d x2 x3) :=
  rowSelect_of_length _ rfl rfl

theorem RowSelect.output (a : Operand) (x2 x3 : Mode) : RowSelect.Statement (.output a x2 x3) :=
  rowSelect_of_length _ rfl rfl

theorem RowSelect.jumpIfTrue (a t : Operand) (x3 : Mode) : RowSelect.Statement (.jumpIfTrue a t x3) :=
  rowSelect_of_length _ rfl rfl

theorem RowSelect.jumpIfFalse (a t : Operand) (x3 : Mode) : RowSelect.Statement (.jumpIfFalse a t x3) :=
  rowSelect_of_length _ rfl rfl

theorem RowSelect.lessThan (a b : Operand) (d : Dest) : RowSelect.Statement (.lessThan a b d) :=
  rowSelect_of_length _ rfl rfl

theorem RowSelect.equals (a b : Operand) (d : Dest) : RowSelect.Statement (.equals a b d) :=
  rowSelect_of_length _ rfl rfl

theorem RowSelect.adjustBase (a : Operand) (x2 x3 : Mode) : RowSelect.Statement (.adjustBase a x2 x3) :=
  rowSelect_of_length _ rfl rfl

theorem RowSelect.halt (x1 x2 x3 : Mode) : RowSelect.Statement (.halt x1 x2 x3) := rowSelect_of_length _ rfl rfl

end Sys2Proof.Laws
end

