-- ==== Sys2Proof/Tests/Slice0.lean ====
section
/-! SUPPORT. Tests. Every expected result is taken from the document's worked examples or the vectors of
spec/95_test_vectors.md, whose id each comment names. The last part shows, for every obligation with hypotheses, a
concrete input that meets them. -/

namespace Sys2Proof.Tests

open Sys2Proof Sys2Proof.Machine

/-! Small states. -/

/-- A program loaded, with an input source. -/
def st (prog : List Int) (input : List Int := []) : State := loadProgram State.reset prog input

/-- The same with `rb` set. -/
def withRb (rb : Int) (s : State) : State := { s with rb := rb }

/-- The same with `pc` set. -/
def withPc (pc : Int) (s : State) : State := { s with pc := pc }

/-- The same with a finite `WORD_BITS` of 64. -/
def with64 (s : State) : State := { s with params := { wordBits := some 64, maxAddr := none } }

/-- The same with a finite `MAX_ADDR`. -/
def withLimit (m : Nat) (s : State) : State := { s with params := { wordBits := none, maxAddr := some m } }

/-- The state after one step, if there is one. -/
def after (s : State) : Option State :=
  match step s with
  | .next t => some t
  | .fault _ => none
  | .refused _ => none

/-- The state after `exec` of one instruction, if there is one. -/
def ran (i : Instr) (s : State) : Option State :=
  match exec i s with
  | .next t => some t
  | .fault _ => none
  | .refused _ => none

/-- The fault one step takes, with the state it leaves put back to running: equal to the start state when nothing else
changed. -/
def faultOf (s : State) : Option (FaultCause × State) :=
  match step s with
  | .next t =>
    match t.runState with
    | .faulted c => some (c, { t with runState := .running })
    | .running => none
    | .halted _ => none
  | .fault _ => none
  | .refused _ => none

/-- The largest word of 64 bits. -/
def max64 : Int := 9223372036854775807

/-! WellFormed: an operand word outside 64 bits is refused in every slot; the ends of the range are accepted (R114). -/

theorem test_wellFormed_default_accepts_all :
    Instr.wellFormed Params.default (.add ⟨.position, max64 + 1⟩ ⟨.immediate, 0⟩ ⟨.relative, 0⟩) = true := by decide

theorem test_wellFormed_range_ends :
    Instr.wellFormed ⟨some 64, none⟩ (.add ⟨.position, max64⟩ ⟨.immediate, -max64 - 1⟩ ⟨.relative, 0⟩) = true := by
  decide

theorem test_wellFormed_refuses_slot1 :
    Instr.wellFormed ⟨some 64, none⟩ (.mul ⟨.position, max64 + 1⟩ ⟨.immediate, 0⟩ ⟨.relative, 0⟩) = false := by decide

theorem test_wellFormed_refuses_slot2 :
    Instr.wellFormed ⟨some 64, none⟩ (.jumpIfTrue ⟨.position, 0⟩ ⟨.immediate, -max64 - 2⟩ .position) = false := by
  decide

theorem test_wellFormed_refuses_slot3 :
    Instr.wellFormed ⟨some 64, none⟩ (.equals ⟨.position, 0⟩ ⟨.immediate, 0⟩ ⟨.relative, max64 + 1⟩) = false := by
  decide

theorem test_wellFormed_refuses_dest_of_input :
    Instr.wellFormed ⟨some 64, none⟩ (.input ⟨.relative, max64 + 1⟩ .position .position) = false := by decide

/-! The decoder, each word written out from R71 and R74 as `m3 m2 m1 opcode` (vectors of section 2). -/

theorem test_decode_add : decode [21101, 3, 4, -2] =
    .ok (.add ⟨.immediate, 3⟩ ⟨.immediate, 4⟩ ⟨.relative, -2⟩, []) := by rfl

theorem test_decode_mul : decode [21202, 0, -2, 1, 7] =
    .ok (.mul ⟨.relative, 0⟩ ⟨.immediate, -2⟩ ⟨.relative, 1⟩, [7]) := by rfl

theorem test_decode_input : decode [203, 5] = .ok (.input ⟨.relative, 5⟩ .position .position, []) := by rfl

theorem test_decode_output_unused_mode : decode [10004, 0] =
    .ok (.output ⟨.position, 0⟩ .position .immediate, []) := by rfl

theorem test_decode_jumpIfTrue : decode [1105, 1, 9] =
    .ok (.jumpIfTrue ⟨.immediate, 1⟩ ⟨.immediate, 9⟩ .position, []) := by rfl

theorem test_decode_jumpIfFalse : decode [1006, 101, 0] =
    .ok (.jumpIfFalse ⟨.position, 101⟩ ⟨.immediate, 0⟩ .position, []) := by rfl

theorem test_decode_lessThan : decode [22207, 1, 0, 2] =
    .ok (.lessThan ⟨.relative, 1⟩ ⟨.relative, 0⟩ ⟨.relative, 2⟩, []) := by rfl

theorem test_decode_equals : decode [1008, 100, 16, 101] =
    .ok (.equals ⟨.position, 100⟩ ⟨.immediate, 16⟩ ⟨.position, 101⟩, []) := by rfl

theorem test_decode_adjustBase : decode [109, -7] = .ok (.adjustBase ⟨.immediate, -7⟩ .position .position, []) := by rfl

theorem test_decode_halt : decode [21099] = .ok (.halt .position .immediate .relative, []) := by rfl

theorem test_decode_excess_digits : decode [100099] = decode [99] := by rfl

/-- The rejections of section 2, in its order: opcode before modes, lowest slot first, immediate destination last. -/
theorem test_decode_rejections :
    [0, 10, 98, 300, 1234567, 304, 399, 31105, 9999999, 11101, 10001, 103, -1, -99901].map decodeWord =
      [.error (.unknownOpcode 0), .error (.unknownOpcode 10), .error (.unknownOpcode 98), .error (.unknownOpcode 0),
        .error (.unknownOpcode 67), .error (.invalidMode 1), .error (.invalidMode 1), .error (.invalidMode 3),
        .error (.invalidMode 1), .error (.invalidMode 3), .error (.invalidMode 3), .error (.invalidMode 1),
        .error .negativeWord, .error .negativeWord] := by rfl

theorem test_decodeTableWord : decodeTableWord 16 1199 = some (.halt .immediate .immediate .position) := by rfl

theorem test_fetchWord_runs_first :
    after (State.reset.withFetchWord 16 1199) = ran (.halt .immediate .immediate .position)
      (State.reset.withFetchWord 16 1199) := by rfl

/-! One step of each instruction (section 5). -/

/-- A5: the sum overwrites the instruction's own word. -/
theorem test_add_overwrites_itself : after (st [1101, 50, 49, 0]) = some { st [99, 50, 49, 0] with pc := 4 } := by
  decide

/-- A3: relative reads and a relative destination. -/
theorem test_add_relative : after (withRb 10 (st [22201, -5, -4, -3, 0, 5, 6, 0])) =
    some { withRb 10 (st [22201, -5, -4, -3, 0, 5, 6, 11]) with pc := 4 } := by decide

/-- M2: a product of two signs. -/
theorem test_mul_signs : after (st [1102, -6, 7, 0]) = some { st [-42, -6, 7, 0] with pc := 4 } := by decide

/-- M6: the full product, beyond 64 bits and beyond `L`. -/
theorem test_mul_full_product : after (st [1102, 4294967296, 4294967296, 5]) =
    some { st [1102, 4294967296, 4294967296, 5, 0, 18446744073709551616] with initLen := 4, pc := 4 } := by decide

/-- I7: one value, the oldest. -/
theorem test_input_oldest : after (st [3, 0] [4, 5, 6]) = some { st [4, 0] [5, 6] with pc := 2 } := by decide

/-- I3: a bad destination faults and consumes nothing. -/
theorem test_input_bad_destination : faultOf (st [3, -1] [5]) = some (.addressError (-1), st [3, -1] [5]) := by decide

/-- O3: a word never written. -/
theorem test_output_unwritten : after (st [4, 100]) = some { st [4, 100] with pc := 2, outLog := [0] } := by decide

/-- B7: a negative base and a legal address formed from it. -/
theorem test_output_negative_base : after (withRb (-3) (st [204, 5, 42])) =
    some { withRb (-3) (st [204, 5, 42]) with pc := 2, outLog := [42] } := by decide

/-- J5: the target is read through its mode. -/
theorem test_jumpIfTrue_relative : after (withRb 5 (st [2205, 1, 2, 0, 0, 0, 3, 30])) =
    some (withPc 30 (withRb 5 (st [2205, 1, 2, 0, 0, 0, 3, 30]))) := by decide

/-- J6: the target is resolved though the jump is not taken. -/
theorem test_jumpIfTrue_eager_target : faultOf (st [105, 0, -1]) = some (.addressError (-1), st [105, 0, -1]) := by
  decide

/-- J10: zero is false. -/
theorem test_jumpIfFalse_taken : after (st [6, 3, 4, 0, 11]) = some (withPc 11 (st [6, 3, 4, 0, 11])) := by decide

/-- J9: not taken. -/
theorem test_jumpIfFalse_not_taken : after (st [1106, 5, 9]) = some (withPc 3 (st [1106, 5, 9])) := by decide

/-- L3: signed. -/
theorem test_lessThan_signed : after (st [1107, -1, 0, 5]) =
    some { st [1107, -1, 0, 5, 0, 1] with initLen := 4, pc := 4 } := by decide

/-- L7: strict, and over its own word. -/
theorem test_lessThan_strict : after (st [7, 0, 0, 0]) = some { st [0, 0, 0, 0] with pc := 4 } := by decide

/-- E3: a word equals itself. -/
theorem test_equals_self : after (st [8, 0, 0, 0]) = some { st [1, 0, 0, 0] with pc := 4 } := by decide

/-- E2: not equal up to sign. -/
theorem test_equals_sign : after (st [1108, -3, 3, 5]) = some { st [1108, -3, 3, 5] with pc := 4 } := by decide

/-- B4: the operand is read with the old base. -/
theorem test_adjustBase_old_base : after (withRb 4 (st [209, 2, 0, 0, 0, 0, 10])) =
    some { withRb 14 (st [209, 2, 0, 0, 0, 0, 10]) with pc := 2 } := by decide

/-- B2: the base may go below zero. -/
theorem test_adjustBase_negative : after (withRb 3 (st [109, -7])) =
    some { withRb (-4) (st [109, -7]) with pc := 2 } := by decide

/-- H5: the halting position; `pc` stays. -/
theorem test_halt_position : after (withPc 4 (st [1, 0, 0, 0, 99])) =
    some { withPc 4 (st [1, 0, 0, 0, 99]) with runState := .halted 4 } := by decide

/-- H3: a mode digit of a slot `halt` does not have. -/
theorem test_halt_bad_mode : faultOf (st [399]) = some (.invalidModeError 399 0 1, st [399]) := by decide

/-! Finite parameters (section 4, rows 12 to 14; R114, D2). -/

theorem test_add_overflow_64 : faultOf (with64 (st [1101, max64, 1, 5])) =
    some (.arithmeticOverflow 0, with64 (st [1101, max64, 1, 5])) := by decide

theorem test_lessThan_exact_64 : after (with64 (st [1107, -max64 - 1, -1, 4])) =
    some { with64 (st [1107, -max64 - 1, -1, 4, 1]) with initLen := 4, pc := 4 } := by decide

theorem test_limit_faults : faultOf (withLimit 4 (st [1101, 1, 1, 5])) =
    some (.aboveMaxAddr 5, withLimit 4 (st [1101, 1, 1, 5])) := by decide

/-! Host operations (section 6 and Example 6, program P4). -/

/-- The second half of G2: the channels are not rewound. -/
theorem test_restore_keeps_channels :
    restore { st [8, 0, 4, 0, 99] [8] with outLog := [7], pc := 4, runState := .halted 4 }
      (checkpoint (st [3, 0, 4, 0, 99])) = { st [3, 0, 4, 0, 99] [8] with outLog := [7] } := by decide

/-- P4, first run to output: one step, at the `input` instruction, value 1. -/
theorem test_runToOutput_first :
    hostMove (.runToOutput 9) (st [4, 8, 3, 8, 1005, 8, 0, 99, 1]) =
      .done { st [4, 8, 3, 8, 1005, 8, 0, 99, 1] with pc := 2, outLog := [1] } (.pushed .running (some 1)) := by decide

/-! Witnesses: every obligation with hypotheses has an input that meets them, each clause at a boundary of its range. -/

theorem witness_FieldsRoundTrip : (⟨99, 9, 9, 9⟩ : Fields).opcode ≤ 99 ∧ (⟨99, 9, 9, 9⟩ : Fields).m1 ≤ 9 ∧
    (⟨99, 9, 9, 9⟩ : Fields).m2 ≤ 9 ∧ (⟨99, 9, 9, 9⟩ : Fields).m3 ≤ 9 := by decide

theorem witness_EncodeOfDecode : decode (121101 :: [3, 4, -2, 7]) =
    .ok (.add ⟨.immediate, 3⟩ ⟨.immediate, 4⟩ ⟨.relative, -2⟩, [7]) := by rfl

theorem witness_ExcessDigitsIgnored :
    canonicalMemory (st [100099]) ∧ addressable (st [100099]) (st [100099]).pc ∧
      wordAt (st [100099]) (st [100099]).pc = 100099 ∧ (fetchInstr (st [100099])).isOk = true := by decide

theorem witness_UnknownOpcodeFaults : ∀ w ∈ [0, 10, 98, 300, 1234567], readyToFetch (st [w]) ∧
    0 ≤ wordAt (st [w]) (st [w]).pc ∧ opcodeAt (st [w]) ∉ knownOpcodes := by decide

theorem witness_NegativeWordFaults : readyToFetch (st [-1]) ∧ wordAt (st [-1]) (st [-1]).pc < 0 := by decide

/-- The words 304, 1304, 31105 and 9999999 with the slots 1, 1, 3 and 1, and 3199 with the slot 2. -/
theorem witness_ModeDigitAboveTwoFaults :
    ∀ c ∈ [((304 : Int), 1), (1304, 1), (31105, 3), (9999999, 1), (3199, 2)],
      readyToFetch (st [c.1]) ∧ 0 ≤ wordAt (st [c.1]) (st [c.1]).pc ∧ opcodeAt (st [c.1]) ∈ knownOpcodes ∧ 1 ≤ c.2 ∧
        c.2 ≤ 3 ∧ 2 < digit (c.2 + 1) (wordAt (st [c.1]) (st [c.1]).pc).toNat ∧
        ∀ k ∈ List.range c.2, 1 ≤ k → digit (k + 1) (wordAt (st [c.1]) (st [c.1]).pc).toNat ≤ 2 := by decide

theorem witness_ImmediateDestinationFaults :
    ∀ c ∈ [((10001 : Int), 3), (11102, 3), (12207, 3), (10008, 3), (103, 1), (22103, 1)],
      readyToFetch (st [c.1]) ∧ 0 ≤ wordAt (st [c.1]) (st [c.1]).pc ∧
        (∀ k ∈ [1, 2, 3], digit (k + 1) (wordAt (st [c.1]) (st [c.1]).pc).toNat ≤ 2) ∧
        (opcodeAt (st [c.1]) ∈ [1, 2, 7, 8] ∧ c.2 = 3 ∨ opcodeAt (st [c.1]) = 3 ∧ c.2 = 1) ∧
        digit (c.2 + 1) (wordAt (st [c.1]) (st [c.1]).pc).toNat = 1 := by decide

/-- Section 3's memory: the program `10,20,30` and 70 at address 7. -/
def split : SplitMemory := { base := [10, 20, 30], ext := [(7, 70)] }

/-- The machine that holds it. -/
def splitState (rb : Int) : State := { withRb rb (st [10, 20, 30]) with mem := split.view }

/-- The addresses -1, 0, 2, 3 and 7 of the clauses of the two statements about regions, with what a read gives. -/
theorem witness_MemReadFollowsRegions : (splitState 0).params.maxAddr = none ∧ split.wf ∧
    (splitState 0).mem = split.view ∧ split.base.length = 3 ∧
    (memRead (splitState 0) (-1)).isOk = false ∧ [0, 2, 3, 7].map (memRead (splitState 0)) =
      [.ok 10, .ok 30, .ok 0, .ok 70] := ⟨rfl, by decide, rfl, rfl, rfl, rfl⟩

theorem witness_MemWriteFollowsRegions : (splitState 0).params.maxAddr = none ∧ split.wf ∧
    (splitState 0).mem = split.view ∧ (memWrite (splitState 0) (-1) 5).isOk = false ∧
    [0, 2, 3, 7].map (fun a => (split.write a 5).read a) = [5, 5, 5, 5] := ⟨rfl, by decide, rfl, rfl, rfl⟩

/-- Section 3's translator rows: raw -1 and 0 in position mode; `rb + raw` of -1, 0 and 7 in relative mode. -/
theorem witness_TranslatorFollowsModes : (splitState 3).params = Params.default ∧
    [(readOperand (splitState 3) ⟨.position, 0⟩), readOperand (splitState 3) ⟨.relative, -3⟩,
      readOperand (splitState 3) ⟨.relative, 4⟩] = [.ok 10, .ok 10, .ok 70] ∧
    (readOperand (splitState 3) ⟨.position, -1⟩).isOk = false ∧
    (readOperand (splitState 3) ⟨.relative, -4⟩).isOk = false := ⟨rfl, rfl, rfl, rfl⟩

theorem witness_AccessAboveLimitFaults :
    (withLimit 5 (st [])).params.maxAddr = some 5 ∧ ((5 : Nat) : Int) < 6 := by decide

/-- The clauses of `AluIsExact` at neighbouring operands (section 4). -/
theorem witness_AluIsExact : alu .lt (-1) 0 = 1 ∧ alu .lt 0 0 = 0 ∧ alu .eq 0 0 = 1 ∧ alu .eq (-3) 3 = 0 := by decide

/-- 64 bits, at the largest sum and the largest product that are words; every mode. -/
theorem witness_AddAndMulComplete :
    let s := with64 (withRb (-3) (st [0, 0, max64 - 1, 1, 7]))
    readable s ⟨.position, 2⟩ ∧ readable s ⟨.immediate, 1⟩ ∧ readable s ⟨.relative, 7⟩ ∧ writable s ⟨.position, 0⟩ ∧
      writable s ⟨.relative, 3⟩ ∧ wordFits s.params (s.pc + 4) = true ∧
      wordFits s.params (operandValue s ⟨.position, 2⟩ + operandValue s ⟨.immediate, 1⟩) = true ∧
      wordFits s.params (operandValue s ⟨.position, 2⟩ * operandValue s ⟨.immediate, 1⟩) = true ∧
      operandValue s ⟨.relative, 7⟩ = 7 := by decide

/-- The next pointer at the largest word. -/
theorem witness_ComparisonsComplete :
    let s := with64 (withPc (max64 - 4) (st [5, 5]))
    readable s ⟨.position, 0⟩ ∧ readable s ⟨.position, 1⟩ ∧ writable s ⟨.position, 0⟩ ∧
      wordFits s.params (s.pc + 4) = true := by decide

theorem witness_InputCompletes :
    let s := with64 (withPc (max64 - 2) (st [3, 0] [7]))
    writable s ⟨.position, 0⟩ ∧ s.inQueue = 7 :: [] ∧ wordFits s.params (s.pc + 2) = true := by decide

theorem witness_OutputCompletes :
    let s := with64 (withPc (max64 - 2) (st [4, 0]))
    readable s ⟨.position, 0⟩ ∧ wordFits s.params (s.pc + 2) = true := by decide

/-- Both truth values of the condition, and the fall-through at the largest word. -/
theorem witness_JumpsComplete :
    let s := with64 (withPc (max64 - 3) (st [-1, 0]))
    readable s ⟨.position, 0⟩ ∧ readable s ⟨.position, 1⟩ ∧ operandValue s ⟨.position, 0⟩ ≠ 0 ∧
      operandValue s ⟨.position, 1⟩ = 0 ∧ wordFits s.params (s.pc + 3) = true := by decide

theorem witness_AdjustBaseCompletes :
    let s := with64 (withRb (max64 - 1) (st [1]))
    readable s ⟨.position, 0⟩ ∧ wordFits s.params (s.rb + operandValue s ⟨.position, 0⟩) = true ∧
      wordFits s.params (s.pc + 2) = true := by decide

/-- Each clause: operand 1, operand 2 and the destination at -1, with a relative sum one above the largest word, and one
above a finite `MAX_ADDR` (the limit itself is reached); the sum one above the largest word; the next pointer one above
it. -/
theorem witness_AluInstructionsFaultInOrder :
    let s := with64 (withRb max64 (st [max64, 1]))
    let u := with64 (withPc (max64 - 3) (st [max64, 1]))
    let l := withLimit 5 (st [2, 3])
    (Instr.add, AluFn.add) ∈ aluInstrs ∧ addrModeOf .position = some .position ∧ addrModeOf .relative = some .relative ∧
      ¬ reaches s .position (-1) ∧ ¬ reaches s .relative 1 ∧ ¬ reaches l .position 6 ∧ reaches l .position 5 ∧
      readable s ⟨.position, 0⟩ ∧ readable s ⟨.position, 1⟩ ∧ ¬ writable s ⟨.position, -1⟩ ∧
      ¬ writable s ⟨.relative, 1⟩ ∧ ¬ writable l ⟨.position, 6⟩ ∧ writable s ⟨.position, 0⟩ ∧
      aluOverflows s.params .add (operandValue s ⟨.position, 0⟩) (operandValue s ⟨.position, 1⟩) = true ∧
      readable u ⟨.position, 0⟩ ∧ writable u ⟨.position, 0⟩ ∧ wordFits u.params (u.pc + 4) = false := by
  refine ⟨List.mem_cons_self, rfl, rfl, ?_⟩
  decide

/-- The faults those accesses raise: below 0, the sum of a finite width (R114), above the limit (log entry 5). -/
theorem test_accessFault_kinds :
    accessFault (with64 (withRb max64 (st []))) .relative 1 = .arithmeticOverflow 0 ∧
      accessFault (withLimit 5 (st [])) .position (-1) = .addressError (-1) ∧
      accessFault (withLimit 5 (st [])) .position 6 = .aboveMaxAddr 6 := by decide

theorem witness_InputFaultsInOrder :
    let s := with64 (withPc (max64 - 1) (st [3, 0] [7]))
    ¬ writable s ⟨.position, -1⟩ ∧ ¬ writable (withLimit 5 (st [3, 6])) ⟨.position, 6⟩ ∧
      writable (withLimit 5 (st [3, 5])) ⟨.position, 5⟩ ∧ writable s ⟨.position, 0⟩ ∧ (st [3, 0]).inQueue = [] ∧
      writable (st [3, 0]) ⟨.position, 0⟩ ∧ s.inQueue ≠ [] ∧ wordFits s.params (s.pc + 2) = false := by decide

theorem witness_OneOperandInstructionsFaultInOrder :
    let s := with64 (withRb max64 (withPc (max64 - 1) (st [1])))
    addrModeOf .relative = some .relative ∧ ¬ reaches s .relative 1 ∧ ¬ reaches s .position (-1) ∧
      ¬ reaches (withLimit 5 s) .position 6 ∧ reaches (withLimit 5 s) .position 5 ∧ readable s ⟨.position, 0⟩ ∧
      wordFits s.params (s.pc + 2) = false ∧ wordFits s.params (s.rb + operandValue s ⟨.position, 0⟩) = false := by
  decide

theorem witness_JumpsFaultInOrder :
    let s := with64 (withRb max64 (withPc (max64 - 2) (st [0, 1])))
    addrModeOf .position = some .position ∧ ¬ reaches s .position (-1) ∧ ¬ reaches s .relative 1 ∧
      ¬ reaches (withLimit 5 s) .position 6 ∧ reaches (withLimit 5 s) .position 5 ∧ readable s ⟨.position, 0⟩ ∧
      readable s ⟨.position, 1⟩ ∧ wordFits s.params (s.pc + 3) = false ∧ operandValue s ⟨.position, 0⟩ = 0 ∧
      operandValue s ⟨.position, 1⟩ ≠ 0 := by decide

/-- A store and an input, with an address outside the stored one; and a destination that faults. -/
theorem witness_StoringInstructionsFrame :
    destOf (.add ⟨.immediate, 1⟩ ⟨.immediate, 1⟩ ⟨.position, 0⟩) = some ⟨.position, 0⟩ ∧
      (ran (.add ⟨.immediate, 1⟩ ⟨.immediate, 1⟩ ⟨.position, 0⟩) (st [5, 6])).isSome = true ∧
      destOf (.input ⟨.position, 0⟩ .position .position) = some ⟨.position, 0⟩ ∧
      (ran (.input ⟨.position, 0⟩ .position .position) (st [5, 6] [7])).map (·.inQueue) = some [] ∧
      (writeAddr (st [5, 6]) ⟨.position, 0⟩).toOption = some 0 ∧
      (writeAddr (st [5, 6]) ⟨.position, -1⟩).toOption = none := by decide

theorem witness_OtherInstructionsFrame :
    ∀ i ∈ [Instr.output ⟨.position, 0⟩ .position .position, .adjustBase ⟨.position, 0⟩ .position .position,
        .jumpIfTrue ⟨.position, 0⟩ ⟨.position, 0⟩ .position, .halt .position .position .position],
      destOf i = none ∧ (ran i (st [5, 6])).isSome = true := by decide

/-- The instruction's last operand word is the last word a finite `MAX_ADDR` admits. -/
theorem witness_StepRunsDecodedInstruction :
    (withLimit 1 (st [104, 5])).runState = .running ∧
      decode (wordsAtPc (withLimit 1 (st [104, 5]))) = .ok (.output ⟨.immediate, 5⟩ .position .position, [0, 0]) ∧
      addressable (withLimit 1 (st [104, 5])) 0 ∧ addressable (withLimit 1 (st [104, 5])) 1 ∧
      ¬ addressable (withLimit 1 (st [104, 5])) 2 := ⟨rfl, rfl, by decide, by decide, by decide⟩

/-- The first operand word above the limit, and the last one. -/
theorem witness_OperandWordAboveLimitFaults :
    ∀ c ∈ [((0 : Nat), (1 : Nat)), (2, 3)], readyToFetch (withLimit c.1 (st [1])) ∧
      (withLimit c.1 (st [1])).params.maxAddr = some c.1 ∧
      (decodeWord (wordAt (withLimit c.1 (st [1])) 0)).toOption = some (.add ⟨.position, 0⟩ ⟨.position, 0⟩ ⟨.position, 0⟩) ∧
      1 ≤ c.2 ∧ c.2 ≤ (Instr.add ⟨.position, 0⟩ ⟨.position, 0⟩ ⟨.position, 0⟩).operandCount ∧
      (withLimit c.1 (st [1])).pc + c.2 = c.1 + 1 := by decide

theorem witness_NegativePcFaults : (withPc (-1) (st [99])).runState = .running ∧ (withPc (-1) (st [99])).pc < 0 := by
  decide

theorem witness_RunningMachineSteps : (st [99]).runState = .running := rfl

theorem witness_EndedMachineIsNotStepped :
    ({ st [99] with runState := .halted 0 } : State).runState = .halted 0 ∧
      ({ st [0] with runState := .faulted (.unknownOpcodeError 0 0) } : State).runState =
        .faulted (.unknownOpcodeError 0 0) := by decide

theorem witness_FaultChangesOnlyRunState :
    ∃ t, step (st [0]) = .next t ∧ t.runState = .faulted (.unknownOpcodeError 0 0) := ⟨_, rfl, rfl⟩

theorem witness_OnlyOpcode99Halts : ∃ t, step (st [99]) = .next t ∧ t.runState = .halted 0 := ⟨_, rfl, rfl⟩

theorem witness_OnlyAdjustBaseWritesRb :
    ∃ t, step (st [109, 1]) = .next t ∧ t.rb ≠ (st [109, 1]).rb := ⟨_, rfl, by decide⟩

theorem witness_OnlyInputConsumes :
    ∃ t, step (st [3, 0] [7]) = .next t ∧ t.inQueue ≠ (st [3, 0] [7]).inQueue := ⟨_, rfl, by decide⟩

theorem witness_OnlyOutputEmits :
    ∃ t, step (st [104, 1]) = .next t ∧ t.outLog ≠ (st [104, 1]).outLog := ⟨_, rfl, by decide⟩

/-- A step that stores, with an address its destination does not name; and one of an opcode that stores nothing. -/
theorem witness_OnlyTheDestinationIsStored :
    (∃ t, step (st [1101, 1, 1, 0]) = .next t ∧ t.mem ≠ (st [1101, 1, 1, 0]).mem) ∧
      (fetchInstr (st [1101, 1, 1, 0])).toOption = some (.add ⟨.immediate, 1⟩ ⟨.immediate, 1⟩ ⟨.position, 0⟩) ∧
      (writeAddr (st [1101, 1, 1, 0]) ⟨.position, 0⟩).toOption ≠ some 1 ∧
      (∃ t, step (st [104, 1]) = .next t) ∧ opcodeAt (st [104, 1]) ∉ [1, 2, 3, 7, 8] :=
  ⟨⟨_, rfl, by decide⟩, by decide, by decide, ⟨_, rfl⟩, by decide⟩

theorem witness_AddressErrorsComeFromOperands :
    (∃ t, step (st [4, -1]) = .next t ∧ t.runState = .faulted (.addressError (-1))) ∧
      ∃ t, step (withPc (-1) (st [])) = .next t ∧ t.runState = .faulted (.addressError (-1)) :=
  ⟨⟨_, rfl, rfl⟩, ⟨_, rfl, rfl⟩⟩

theorem witness_DefaultParametersNeverLimit :
    ∃ t, step (st [0]) = .next t ∧ t.runState = .faulted (.unknownOpcodeError 0 0) ∧
      (st [0]).params.wordBits = none ∧ (st [0]).params.maxAddr = none := ⟨_, rfl, rfl, rfl, rfl⟩

theorem witness_NextFetchSeesTheStore :
    (Instr.add, AluFn.add) ∈ aluInstrs ∧ canonicalMemory (st [1101, 90, 9, 4]) ∧
      readable (st [1101, 90, 9, 4]) ⟨.immediate, 90⟩ ∧ readable (st [1101, 90, 9, 4]) ⟨.immediate, 9⟩ ∧
      writable (st [1101, 90, 9, 4]) ⟨.position, 4⟩ ∧
      aluOverflows (st [1101, 90, 9, 4]).params .add 90 9 = false ∧
      wordFits (st [1101, 90, 9, 4]).params ((st [1101, 90, 9, 4]).pc + 4) = true ∧
      exactAddr (st [1101, 90, 9, 4]) .position 4 = (st [1101, 90, 9, 4]).pc + 4 :=
  ⟨List.mem_cons_self, by decide⟩

theorem witness_FaultKindsByInstruction :
    ∃ t, exec (.input ⟨.position, 0⟩ .position .position) (st [3, 0]) = .next t ∧
      (st [3, 0]).runState = .running ∧ t.runState = .faulted (.outOfInputError 0) := ⟨_, rfl, rfl, rfl⟩

/-- A step that is not an `input` with another input source, and an `input` with the same. -/
theorem witness_StepIgnoresSinkAndLength :
    (∃ t, step (st [104, 1]) = .next t ∧ opcodeAt (st [104, 1]) ≠ 3) ∧
      ∃ t, step (st [3, 0] [7]) = .next t ∧ [7] = (st [3, 0] [7]).inQueue :=
  ⟨⟨_, rfl, by decide⟩, ⟨_, rfl, rfl⟩⟩

theorem witness_StepKeepsCanonicalMemory :
    ∃ t, canonicalMemory (st [1102, 0, -7, 0]) ∧ step (st [1102, 0, -7, 0]) = .next t := ⟨_, by decide, rfl⟩

theorem witness_StepKeepsWordsRepresentable :
    ∃ t, wordsFit (with64 (st [1101, max64, -1, 0] [max64])) ∧
      step (with64 (st [1101, max64, -1, 0] [max64])) = .next t := by
  refine ⟨_, ⟨?_, by decide⟩, rfl⟩
  intro w hw
  cases hw
  decide

theorem witness_StepKeepsStorageBounds :
    ∃ t, withinStorage (withLimit 4 (st [1101, 1, 1, 4])) ∧ step (withLimit 4 (st [1101, 1, 1, 4])) = .next t :=
  ⟨_, by decide, rfl⟩

theorem witness_ResetMeetsInvariants : Params.default.legal ∧ (⟨some 64, none⟩ : Params).legal := by
  constructor
  · intro w hw
    cases hw
  · intro w hw
    cases hw
    decide

theorem witness_RestoredMachineRunsIdentically :
    (st [99] [7]).runState = .running ∧ ({ st [1, 2] [7] with runState := .halted 9 } : State).inQueue =
      (st [99] [7]).inQueue ∧ ({ st [1, 2] [7] with runState := .halted 9 } : State).params = (st [99] [7]).params := by
  decide

theorem witness_RetryRepeatsTheInput :
    ∃ t, step (st [3, 0]) = .next t ∧ t.runState = .faulted (.outOfInputError 0) ∧
      wordFits (st [3, 0]).params ((st [3, 0]).pc + 2) = true := ⟨_, rfl, rfl, rfl⟩

theorem witness_RetryOnlyAfterOutOfInput :
    ∀ p, ({ st [0] with runState := .faulted (.unknownOpcodeError 0 0) } : State).runState ≠
      .faulted (.outOfInputError p) := fun _ h => nomatch h

theorem witness_CompletedRunNeedsNoMoreFuel :
    ∃ t, runToCompletion 1 (st [99]) = .next t ∧ t.runState ≠ .running := ⟨_, rfl, by decide⟩

/-- Both cases: no value (the machine halts), and one value, pushed by the last step the fuel allows. -/
theorem witness_RunToOutputPushesAtMostOne :
    (∃ t, runToOutput 2 (st [99]) = .next t ∧ valuePushed (st [99]) t = none) ∧
      ∃ t, runToOutput 2 (st [109, 0, 104, 1]) = .next t ∧ valuePushed (st [109, 0, 104, 1]) t = some 1 ∧ t.pc = 4 :=
  ⟨⟨_, rfl, rfl⟩, ⟨_, rfl, rfl, rfl⟩⟩

theorem witness_HostMovesKeepCanonicalMemory :
    canonicalMemory (st [0, 5]) ∧ Memory.wf (checkpoint (st [0, 5])).mem ∧
      hostMove (.restore (checkpoint (st [0, 5]))) (st [0, 5]) = .done (st [0, 5]) .nothing := by decide

end Sys2Proof.Tests
end

/-! PROOFS. Memory and the translator (20_memory.md): the document's pair `(base, ext)` against the one-list view `M`,
then the two accesses (R43, R44) and the three operand modes (R47). -/

namespace Sys2Proof.Machine

/-! The extension map. -/

/-- An inserted key reads the new value and every other key what it read before (R44). -/
theorem extLookup_extInsert (ext : List Cell) (a : Nat) (v : Int) (b : Nat) :
    extLookup (extInsert ext a v) b = if b = a then v else extLookup ext b := by
  induction ext with
  | nil => simp [extInsert, extLookup, eq_comm]
  | cons c ext ih =>
    obtain ⟨k, x⟩ := c
    by_cases hk : k = a
    · subst hk
      by_cases hb : b = k <;> simp [extInsert, extLookup, hb, eq_comm]
    · by_cases hb : b = k
      · subst hb; simp [extInsert, extLookup, hk]
      · simp [extInsert, extLookup, hk, ih, Ne.symm hb]

/-- Every cell after an insertion is the one inserted or an old one. -/
theorem mem_extInsert {ext : List Cell} {a : Nat} {v : Int} {c : Cell} (h : c ∈ extInsert ext a v) :
    c = (a, v) ∨ c ∈ ext := by
  induction ext with
  | nil => exact .inl (List.mem_singleton.1 h)
  | cons d ext ih =>
    simp only [extInsert] at h
    split at h <;> rcases List.mem_cons.1 h with rfl | h
    · exact .inl rfl
    · exact .inr (List.mem_cons_of_mem _ h)
    · exact .inr List.mem_cons_self
    · exact (ih h).imp_right (List.mem_cons_of_mem _)

/-! The pair `(base, ext)`. -/

/-- A write keeps every key of the extension map `>= L` (R24). -/
theorem SplitMemory.write_wf {m : SplitMemory} (hm : m.wf) (a : Nat) (v : Int) : (m.write a v).wf := by
  unfold SplitMemory.write
  split
  · simpa [SplitMemory.wf] using hm
  · rename_i ha
    intro c hc
    rcases mem_extInsert hc with rfl | hc
    · exact not_lt.1 ha
    · exact hm c hc

/-- What a read gives after a write, whichever of the two regions the addresses fall in (R43, R44). -/
theorem SplitMemory.read_write (m : SplitMemory) (a : Nat) (v : Int) (b : Nat) :
    (m.write a v).read b = if b = a then v else m.read b := by
  by_cases ha : a < m.base.length
  · by_cases hb : b = a
    · subst hb; simp [SplitMemory.write, SplitMemory.read, ha]
    · simp [SplitMemory.write, SplitMemory.read, ha, hb, List.getElem?_set_ne (Ne.symm hb)]
  · by_cases hb : b < m.base.length
    · have hne : b ≠ a := fun e => ha (e ▸ hb)
      simp [SplitMemory.write, SplitMemory.read, ha, hb, hne]
    · simp [SplitMemory.write, SplitMemory.read, ha, hb, extLookup_extInsert]

/-! The view `M` of the pair (R42). -/

theorem SplitMemory.view_cons (base : List Int) (c : Cell) (ext : List Cell) :
    SplitMemory.view ⟨base, c :: ext⟩ = (SplitMemory.view ⟨base, ext⟩).write c.1 c.2 := rfl

/-- The view is in canonical form. -/
theorem SplitMemory.view_wf (m : SplitMemory) : m.view.wf := by
  obtain ⟨base, ext⟩ := m
  induction ext with
  | nil => exact Memory.ofProgram_wf base
  | cons c ext ih => exact Memory.write_wf ih c.1 c.2

theorem Memory.read_ofProgram (prog : List Int) (a : Nat) : Memory.read (Memory.ofProgram prog) a = prog.getD a 0 := by
  simpa [Memory.ofProgram] using Memory.read_cellsFrom 0 prog a

/-- Inside the loaded sequence the view reads the element: no key of the extension map lies there. -/
theorem SplitMemory.read_view_of_lt {m : SplitMemory} (hm : m.wf) {a : Nat} (ha : a < m.base.length) :
    m.view.read a = m.base.getD a 0 := by
  obtain ⟨base, ext⟩ := m
  induction ext with
  | nil => exact Memory.read_ofProgram base a
  | cons c ext ih =>
    obtain ⟨hc, hext⟩ := List.forall_mem_cons.1 hm
    rw [view_cons, Memory.read_write_other _ _ (Nat.ne_of_lt (Nat.lt_of_lt_of_le ha hc))]
    exact ih hext ha

/-- From `L` on the view reads the extension map, and 0 where the map has no value (R43). -/
theorem SplitMemory.read_view_of_le (m : SplitMemory) {a : Nat} (ha : m.base.length ≤ a) :
    m.view.read a = extLookup m.ext a := by
  obtain ⟨base, ext⟩ := m
  induction ext with
  | nil => exact (Memory.read_ofProgram base a).trans (List.getD_eq_default _ _ ha)
  | cons c ext ih =>
    rw [view_cons, Memory.read_write (view_wf _), ih ha]
    simp [extLookup, eq_comm]

/-- The view and the pair hold the same words. -/
theorem SplitMemory.read_view {m : SplitMemory} (hm : m.wf) (a : Nat) : m.view.read a = m.read a := by
  unfold SplitMemory.read
  split
  · rename_i ha; exact read_view_of_lt hm ha
  · rename_i ha; exact read_view_of_le m (not_lt.1 ha)

/-- Writing the pair and writing its view commute: both sides are canonical and read alike. -/
theorem SplitMemory.view_write {m : SplitMemory} (hm : m.wf) (a : Nat) (v : Int) :
    (m.write a v).view = m.view.write a v := by
  refine Memory.ext (view_wf _) (Memory.write_wf (view_wf m) a v) (fun b => ?_)
  rw [read_view (write_wf hm a v), read_write, Memory.read_write (view_wf m), read_view hm]

/-! The accesses of the machine. -/

section Accesses

variable {s : State}

/-- With the default `MAX_ADDR` every address `>= 0` exists (R6). -/
theorem addressable_of_nonneg (hp : s.params.maxAddr = none) {addr : Int} (h : 0 ≤ addr) : addressable s addr :=
  ⟨h, addrAdmitted_unbounded hp _⟩

theorem checkAddr_negative {addr : Int} (h : addr < 0) : checkAddr s addr = .error (.addressError addr) := if_pos h

theorem memRead_negative {addr : Int} (h : addr < 0) : memRead s addr = .error (.addressError addr) := by
  simp [memRead, checkAddr_negative h]

theorem memWrite_negative {addr v : Int} (h : addr < 0) : memWrite s addr v = .error (.addressError addr) := by
  simp [memWrite, checkAddr_negative h]

theorem memWrite_ok {addr v : Int} (h : addressable s addr) : memWrite s addr v = .ok (storeAt s addr.toNat v) := by
  simp [memWrite, checkAddr_ok h]

/-! The translator with the default parameters. -/

/-- The sum never overflows and no address is above the limit, so only the sign decides an access (R47). -/
theorem reaches_default_iff (hp : s.params = Params.default) {m : AddrMode} {raw : Int} :
    reaches s m raw ↔ 0 ≤ exactAddr s m raw := by
  simp [reaches, addressable, hp]

theorem accessFault_default (hp : s.params = Params.default) {m : AddrMode} {raw : Int} (h : exactAddr s m raw < 0) :
    accessFault s m raw = .addressError (exactAddr s m raw) := by
  simp [accessFault, hp, h]

/-- An operand or destination whose translated address is `>= 0`, in either mode that has one (R47). -/
theorem access_of_nonneg (hp : s.params = Params.default) {mode : Mode} {m : AddrMode} (hm : addrModeOf mode = some m)
    {raw : Int} (h : 0 ≤ exactAddr s m raw) :
    readOperand s ⟨mode, raw⟩ = .ok (wordAt s (exactAddr s m raw))
      ∧ writeAddr s ⟨m, raw⟩ = .ok (exactAddr s m raw).toNat := by
  have hr : reaches s m raw := (reaches_default_iff hp).2 h
  refine ⟨?_, writeAddr_ok hr⟩
  cases mode with
  | position => cases hm; exact readVia_ok hr
  | immediate => exact nomatch hm
  | relative => cases hm; exact readVia_ok hr

/-- An operand or destination whose translated address is negative, in either mode that has one (R47, R222). -/
theorem access_of_negative (hp : s.params = Params.default) {mode : Mode} {m : AddrMode} (hm : addrModeOf mode = some m)
    {raw : Int} (h : exactAddr s m raw < 0) :
    readOperand s ⟨mode, raw⟩ = .error (.addressError (exactAddr s m raw))
      ∧ writeAddr s ⟨m, raw⟩ = .error (.addressError (exactAddr s m raw)) := by
  have hr : ¬ reaches s m raw := fun hr => not_le.2 h ((reaches_default_iff hp).1 hr)
  rw [← accessFault_default hp h]
  exact ⟨readOperand_error hm hr, writeAddr_error hr⟩

end Accesses

/-! The statements. -/

/-- Settles O12: the machine reads its view, and the view reads each region as R43 says. -/
theorem memReadFollowsRegions : Obligations.MemReadFollowsRegions := by
  intro s m addr hp hm hs
  have hread (h : 0 ≤ addr) : memRead s addr = .ok (m.view.read addr.toNat) := by
    rw [memRead_ok (addressable_of_nonneg hp h), wordAt, hs]
  refine ⟨memRead_negative, fun h hlt => ?_, fun h hle => ?_⟩
  · rw [hread h, SplitMemory.read_view_of_lt hm hlt]
  · rw [hread h, SplitMemory.read_view_of_le m hle]

/-- Settles O13: the view of the written pair is the written view, so the words are those of one write to `M`. -/
theorem memWriteFollowsRegions : Obligations.MemWriteFollowsRegions := by
  intro s m addr v hp hm hs
  refine ⟨memWrite_negative, fun h => ?_⟩
  rw [SplitMemory.view_write hm, ← hs]
  refine ⟨memWrite_ok (addressable_of_nonneg hp h), ?_, fun b hb => Memory.read_write_other _ v hb⟩
  exact Memory.read_write_same (hs ▸ m.view_wf) _ v

/-- Settles O15: both addressing modes are the one access rule, at the raw word and at `rb + raw`. -/
theorem translatorFollowsModes : Obligations.TranslatorFollowsModes := by
  refine ⟨rfl, fun s raw hp => ?_⟩
  have hsum : wordFits s.params (s.rb + raw) = true := by rw [hp]; rfl
  exact ⟨rfl, effectiveAddr_ok (m := .relative) fun _ => hsum, rfl,
    access_of_nonneg hp (mode := .position) rfl, access_of_negative hp (mode := .position) rfl,
    access_of_nonneg hp (mode := .relative) rfl, access_of_negative hp (mode := .relative) rfl⟩

end Sys2Proof.Machine

/-! PROOFS. The decoder (30_encoding.md): the fields are the five low decimal digits (R72), so digits above them count
neither in the decoder nor in the fetch (R77), and an opcode outside the table faults in the step (R75). -/

namespace Sys2Proof

/-! Digits and fields. -/

/-- The last `n` digits of a word hold its digits below place `n` (R7). -/
theorem digit_mod_pow {k n : Nat} (h : k < n) (w : Nat) : digit k (w % 10 ^ n) = digit k w := by
  obtain ⟨j, rfl⟩ := Nat.exists_eq_add_of_lt h
  have hsplit : 10 ^ (k + j + 1) = 10 ^ k * 10 ^ (j + 1) := by rw [← pow_add, add_assoc]
  have hten : 10 ∣ 10 ^ (j + 1) := dvd_pow_self 10 (Nat.succ_ne_zero j)
  rw [digit, digit, hsplit, Nat.mod_mul_right_div_self, Nat.mod_mod_of_dvd _ hten]

theorem decodeFields_eq_digits (w : Nat) : decodeFields w = ⟨w % 100, digit 2 w, digit 3 w, digit 4 w⟩ := by
  simp [decodeFields, digit, Nat.div_div_eq_div_mul]

theorem decodeFields_mod (w : Nat) : decodeFields (w % 100000) = decodeFields w := by
  have hopcode : w % 100000 % 100 = w % 100 := Nat.mod_mod_of_dvd w (by decide)
  have hdigit {k : Nat} (hk : k < 5) : digit k (w % 100000) = digit k w := digit_mod_pow hk w
  rw [decodeFields_eq_digits, decodeFields_eq_digits, hopcode, hdigit (by decide), hdigit (by decide),
    hdigit (by decide)]

/-! The instruction word. -/

/-- Of a non-negative word the decoder sees the fields only (R72). -/
theorem decodeWord_congr {v w : Nat} (h : decodeFields v = decodeFields w) : decodeWord v = decodeWord w := by
  have hsign (n : Nat) : ¬ (n : Int) < 0 := by omega
  simp [decodeWord, hsign, h]

theorem decodeWord_mod {iw : Int} (h : 0 ≤ iw) : decodeWord (iw % 100000) = decodeWord iw := by
  obtain ⟨w, rfl⟩ := Int.eq_ofNat_of_zero_le h
  exact decodeWord_congr (decodeFields_mod w)

/-- A word whose opcode selects no row is rejected before its modes are looked at (R75, R228). -/
theorem decodeWord_unknownOpcode {iw : Int} (h : 0 ≤ iw) (hrow : findRow (iw.toNat % 100) = none) :
    decodeWord iw = .error (.unknownOpcode (iw.toNat % 100)) := by
  simp [decodeWord, not_lt.2 h, decodeFields, hrow]

end Sys2Proof

namespace Sys2Proof.Machine

/-- The ten opcodes are the codes of the table's rows (R74). -/
theorem knownOpcodes_eq_codes : knownOpcodes = opcodeTable.map OpcodeRow.code := rfl

theorem findRow_eq_none_iff {n : Nat} : findRow n = none ↔ n ∉ knownOpcodes := by
  simp [findRow, knownOpcodes_eq_codes]

section Fetch

variable {s : State}

/-! What a store leaves of a fetch. -/

theorem addressable_storeAt {addr : Int} (a : Nat) (v : Int) :
    addressable (storeAt s a v) addr ↔ addressable s addr := Iff.rfl

theorem memRead_storeAt_other {addr : Int} {a : Nat} (v : Int) (h : addr.toNat ≠ a) :
    memRead (storeAt s a v) addr = memRead s addr := by
  have hcheck : checkAddr (storeAt s a v) addr = checkAddr s addr := rfl
  unfold memRead
  rw [hcheck]
  split
  · rfl
  · rename_i b hb
    obtain ⟨-, rfl⟩ := checkAddr_ok_iff.1 hb
    rw [storeAt_mem, Memory.read_write_other _ v h]

/-- A store below the words fetched changes none of them. -/
theorem fetchWords_storeAt_below {addr : Int} {a : Nat} (v : Int) (h : (a : Int) < addr) (n : Nat) :
    fetchWords (storeAt s a v) addr n = fetchWords s addr n := by
  induction n generalizing addr with
  | zero => rfl
  | succ n ih =>
    have hne : addr.toNat ≠ a := by omega
    simp only [fetchWords, memRead_storeAt_other v hne, ih (by omega : (a : Int) < addr + 1)]

theorem wordAt_storeAt_same (hm : canonicalMemory s) (addr v : Int) :
    wordAt (storeAt s addr.toNat v) addr = v := Memory.read_write_same hm _ v

/-! The fetch. -/

/-- When a fetch succeeds, and with what: `fetchInstr_ok` and its converse (R100, phases 1 to 6). -/
theorem fetchInstr_ok_iff {i : Instr} : fetchInstr s = .ok i ↔
    addressable s s.pc ∧ ∃ j ws, decodeWord (wordAt s s.pc) = .ok j
      ∧ fetchWords s (s.pc + 1) j.operandCount = .ok ws ∧ i = j.withOperandList ws := by
  refine ⟨fetchInstr_ok, ?_⟩
  rintro ⟨ha, j, ws, hj, hws, rfl⟩
  simp [fetchInstr, memRead_ok ha, hj, hws]

/-- A rejected instruction word is the fault of the fetch (R75, R76, R78, R79). -/
theorem fetchInstr_rejected {e : WordError} (ha : addressable s s.pc) (he : decodeWord (wordAt s s.pc) = .error e) :
    fetchInstr s = .error (decodeFault (wordAt s s.pc) s.pc e) := by
  simp [fetchInstr, memRead_ok ha, he]

/-- The word at `pc` may be replaced by any word that decodes alike. -/
theorem fetchInstr_storeAt_pc_iff {v : Int} {i : Instr} (hm : canonicalMemory s) (hpc : 0 ≤ s.pc)
    (hv : decodeWord v = decodeWord (wordAt s s.pc)) :
    fetchInstr (storeAt s s.pc.toNat v) = .ok i ↔ fetchInstr s = .ok i := by
  have hafter : ((s.pc.toNat : Nat) : Int) < s.pc + 1 := by omega
  rw [fetchInstr_ok_iff, fetchInstr_ok_iff]
  simp only [storeAt_pc, addressable_storeAt, wordAt_storeAt_same hm, hv, fetchWords_storeAt_below v hafter]

end Fetch

/-! The statements. -/

/-- Settles O5: the last five digits give the same fields, and the fetch reads its operand words above `pc`. -/
theorem excessDigitsIgnored : Obligations.ExcessDigitsIgnored := by
  refine ⟨fun iw ws h => ?_, fun s i hm ha hw => ?_⟩
  · simp only [decode, decodeWord_mod h]
  · exact (fetchInstr_storeAt_pc_iff hm ha.1 (decodeWord_mod hw)).symm

/-- Settles O1: the repeated division by 10 takes the digits one at a time. -/
theorem decodeFieldsAreDigits : Obligations.DecodeFieldsAreDigits := ⟨decodeFields_eq_digits, rfl⟩

/-- Settles O8: the opcode selects no row, the word is rejected, and the step takes the fault of the fetch. -/
theorem unknownOpcodeFaults : Obligations.UnknownOpcodeFaults := by
  rintro s ⟨hrun, ha⟩ hw hop
  have hword := decodeWord_unknownOpcode hw (findRow_eq_none_iff.2 hop)
  exact step_of_fetch_error hrun (fetchInstr_rejected ha hword)

end Sys2Proof.Machine

/-! PROOFS. Faults (60_exceptions.md): a step faults by `takeFault` and in no other way, and a faulted machine is not
stepped (R229, D15). -/

namespace Sys2Proof.Machine

/-- The ends of an instruction (R100): a fault taken, the halt, or `run_state` as it was. -/
theorem Effect.ends {i : Instr} {s t : State} (h : Effect i s t) :
    (∃ c, t = takeFault s c) ∨ t = enterHalt s ∨ t.runState = s.runState := by
  cases h with
  | fault c => exact .inl ⟨c, rfl⟩
  | halt => exact .inr (.inl rfl)
  | store | consume | emit | jump | fallThrough | rebase => exact .inr (.inr rfl)

/-- The ends of a step: those of an instruction, and the faults of the fetch. -/
theorem step_ends {s t : State} (h : step s = .next t) :
    (∃ c, t = takeFault s c) ∨ t = enterHalt s ∨ t.runState = .running := by
  obtain ⟨hrun, ⟨c, -, rfl⟩ | ⟨i, -, heff⟩⟩ := step_cases h
  · exact .inl ⟨c, rfl⟩
  · exact hrun ▸ heff.ends

/-- A step that ends faulted has taken that fault (R229). -/
theorem step_faulted {s t : State} {c : FaultCause} (h : step s = .next t) (ht : t.runState = .faulted c) :
    t = takeFault s c := by
  obtain ⟨e, rfl⟩ | rfl | hrun := step_ends h
  · have hcause : e = c := by simpa using ht
    rw [hcause]
  · simp at ht
  · simp [hrun] at ht

theorem step_of_faulted {s : State} {c : FaultCause} (h : s.runState = .faulted c) :
    step s = .refused (.machineFaulted c) := by
  simp [step, h]

/-- Settles O35: of the ends of a step only `takeFault` leaves the machine faulted, and it sets `run_state` alone. -/
theorem faultChangesOnlyRunState : Obligations.FaultChangesOnlyRunState :=
  fun _ _ _ h ht => ⟨step_faulted h ht, step_of_faulted ht⟩

end Sys2Proof.Machine

/-! PROOFS. The encoder (section 2 of 30_encoding.md): fields, mode digits and operand words go round trip, and the
legal words are counted through their fields (R73, R77, R83). -/

namespace Sys2Proof

/-! Fields. -/

theorem decodeFields_encodeFields {f : Fields} (hop : f.opcode ≤ 99) (h1 : f.m1 ≤ 9) (h2 : f.m2 ≤ 9) (h3 : f.m3 ≤ 9) :
    decodeFields (encodeFields f) = f := by
  obtain ⟨op, m1, m2, m3⟩ := f
  simp only [decodeFields, encodeFields, Fields.mk.injEq] at *
  omega

theorem encodeFields_decodeFields (w : Nat) : encodeFields (decodeFields w) = w % 100000 := by
  simp only [decodeFields, encodeFields]
  omega

theorem decodeFields_encodeFields_instr (i : Instr) : decodeFields (encodeFields i.fields) = i.fields := by
  obtain ⟨hop, h1, h2, h3⟩ := fields_bounds i
  exact decodeFields_encodeFields (by omega) (by omega) (by omega) (by omega)

/-! Modes. -/

/-- A destination's mode as one of the three modes, with the same digit (R104). -/
def AddrMode.toMode : AddrMode → Mode
  | .position => .position
  | .relative => .relative

@[simp] theorem addrModeOf_toMode (m : AddrMode) : addrModeOf m.toMode = some m := by cases m <;> rfl

theorem addrModeDigit_eq (m : AddrMode) : addrModeDigit m = modeDigit m.toMode := by cases m <;> rfl

@[simp] theorem withDestMode_toMode (slot : Nat) (m : AddrMode) (mk : AddrMode → Instr) :
    withDestMode slot m.toMode mk = .ok (mk m) := by
  simp [withDestMode]

theorem decodeModes_of_digits {f : Fields} {m1 m2 m3 : Mode} (h1 : f.m1 = modeDigit m1) (h2 : f.m2 = modeDigit m2)
    (h3 : f.m3 = modeDigit m3) : decodeModes f = .ok (m1, m2, m3) := by
  simp [decodeModes, h1, h2, h3]

/-- The digits of an instruction stand for three modes, from which the decoder assembles it, operand words still 0. -/
theorem exists_modes_assemble (i : Instr) : ∃ m1 m2 m3, decodeModes i.fields = .ok (m1, m2, m3)
    ∧ assemble i.op m1 m2 m3 = .ok (i.withOperands 0 0 0) := by
  cases i with
  | add a b d | mul a b d | lessThan a b d | equals a b d =>
    exact ⟨a.mode, b.mode, d.mode.toMode, decodeModes_of_digits rfl rfl (addrModeDigit_eq _), withDestMode_toMode ..⟩
  | input d x2 x3 =>
    exact ⟨d.mode.toMode, x2, x3, decodeModes_of_digits (addrModeDigit_eq _) rfl rfl, withDestMode_toMode ..⟩
  | output a x2 x3 | adjustBase a x2 x3 => exact ⟨a.mode, x2, x3, decodeModes_of_digits rfl rfl rfl, rfl⟩
  | jumpIfTrue a t x3 | jumpIfFalse a t x3 => exact ⟨a.mode, t.mode, x3, decodeModes_of_digits rfl rfl rfl, rfl⟩
  | halt x1 x2 x3 => exact ⟨x1, x2, x3, decodeModes_of_digits rfl rfl rfl, rfl⟩

/-- The instruction word goes round trip; operand words are no part of it (R81). -/
theorem decodeWord_encodeWord (i : Instr) : decodeWord (encodeWord i) = .ok (i.withOperands 0 0 0) := by
  have hsign : ¬ ((encodeFields i.fields : Nat) : Int) < 0 := by omega
  have hrow : findRow i.fields.opcode = some i.op.row := findRow_code i.op
  obtain ⟨m1, m2, m3, hmodes, hassemble⟩ := exists_modes_assemble i
  simp [decodeWord, encodeWord, hsign, decodeFields_encodeFields_instr, hrow, hmodes, row_op, hassemble]

/-! Operand words. -/

theorem operandCount_withOperands (i : Instr) (w1 w2 w3 : Int) :
    (i.withOperands w1 w2 w3).operandCount = i.operandCount := by
  cases i <;> rfl

theorem row_length_le (op : Opcode) : op.row.length ≤ 4 := by cases op <;> decide

theorem operandCount_le (i : Instr) : i.operandCount ≤ 3 := Nat.sub_le_sub_right (row_length_le i.op) 1

theorem withOperandList_operandWords (i : Instr) (rest : List Int) :
    (i.withOperands 0 0 0).withOperandList (i.operandWords ++ rest) = i := by
  cases i <;> rfl

/-- An instruction takes as many words of a list as it has operand words, in slot order (R81). -/
theorem operandWords_withOperandList {i : Instr} {ws : List Int} (h : i.operandCount ≤ ws.length) :
    (i.withOperandList ws).operandWords = ws.take i.operandCount := by
  cases i with
  | halt => rfl
  | input | output | adjustBase =>
    match ws, h with
    | _ :: _, _ => rfl
  | jumpIfTrue | jumpIfFalse =>
    match ws, h with
    | _ :: _ :: _, _ => rfl
  | add | mul | lessThan | equals =>
    match ws, h with
    | _ :: _ :: _ :: _, _ => rfl

/-- What a list of words that decodes is: an accepted word, then enough operand words (R70, R82). -/
theorem decode_ok_iff {iw : Int} {ws rest : List Int} {i : Instr} : decode (iw :: ws) = .ok (i, rest) ↔
    ∃ j, decodeWord iw = .ok j ∧ j.operandCount ≤ ws.length ∧ i = j.withOperandList ws
      ∧ rest = ws.drop j.operandCount := by
  simp only [decode]
  cases decodeWord iw with
  | error e => simp
  | ok j =>
    by_cases hlen : ws.length < j.operandCount
    · simp [hlen, not_le.2 hlen]
    · simp [hlen, not_lt.1 hlen, eq_comm]

/-- An accepted word re-encodes to its last five digits, whatever operand words are put in (R73, R77). -/
theorem encodeWord_of_decodeWord {iw : Int} {i : Instr} (h : decodeWord iw = .ok i) (ws : List Int) :
    encodeWord (i.withOperandList ws) = iw % 100000 := by
  obtain ⟨hsign, hfields, -⟩ := decodeWord_ok h
  simp only [encodeWord, withOperandList_fields, hfields, encodeFields_decodeFields]
  omega

/-! The legal words, counted through their fields (R83). -/

theorem row_code_mem_knownOpcodes (op : Opcode) : op.row.code ∈ Machine.knownOpcodes := by cases op <;> decide

theorem le_of_mem_knownOpcodes : ∀ n ∈ Machine.knownOpcodes, n ≤ 99 := by decide

/-- An opcode and three mode digits as fields. -/
def fieldsOf (d : Nat × Nat × Nat × Nat) : Fields := ⟨d.1, d.2.1, d.2.2.1, d.2.2.2⟩

/-- The fields of a word as an opcode and three mode digits. -/
def digitsOf (w : Nat) : Nat × Nat × Nat × Nat :=
  ((decodeFields w).opcode, (decodeFields w).m1, (decodeFields w).m2, (decodeFields w).m3)

/-- Three mode digits up to 2 (R78). -/
def modeTriples : Finset (Nat × Nat × Nat) := Finset.range 3 ×ˢ Finset.range 3 ×ˢ Finset.range 3

/-- The legal words as fields: opcode and mode digits in range, and accepted by the decoder. -/
def legalDigits : Finset (Nat × Nat × Nat × Nat) :=
  (Machine.knownOpcodes.toFinset ×ˢ modeTriples).filter
    (fun d => (decodeWord (encodeFields (fieldsOf d) : Nat)).isOk = true)

theorem mem_legalDigits {d : Nat × Nat × Nat × Nat} : d ∈ legalDigits ↔
    (d.1 ∈ Machine.knownOpcodes ∧ d.2.1 < 3 ∧ d.2.2.1 < 3 ∧ d.2.2.2 < 3)
      ∧ (decodeWord (encodeFields (fieldsOf d) : Nat)).isOk = true := by
  simp [legalDigits, modeTriples]

/-- An accepted word has one of the ten opcodes and mode digits up to 2. -/
theorem digits_of_isOk {w : Nat} (h : (decodeWord w).isOk = true) :
    (decodeFields w).opcode ∈ Machine.knownOpcodes ∧ (decodeFields w).m1 < 3 ∧ (decodeFields w).m2 < 3
      ∧ (decodeFields w).m3 < 3 := by
  cases hw : decodeWord w with
  | error e => rw [hw] at h; exact nomatch h
  | ok i =>
    obtain ⟨-, hfields, -⟩ := decodeWord_ok hw
    obtain ⟨-, h1, h2, h3⟩ := fields_bounds i
    rw [Int.toNat_natCast] at hfields
    rw [← hfields]
    exact ⟨row_code_mem_knownOpcodes i.op, by omega, by omega, by omega⟩

/-- Words and fields correspond one to one (R73). -/
theorem card_legalWords :
    ((Finset.range 100000).filter (fun w : Nat => (decodeWord (w : Int)).isOk = true)).card = legalDigits.card := by
  have hword {w : Nat} (hw : w < 100000) : encodeFields (decodeFields w) = w := by
    rw [encodeFields_decodeFields, Nat.mod_eq_of_lt hw]
  refine Finset.card_nbij' digitsOf (fun d => encodeFields (fieldsOf d)) ?_ ?_ ?_ ?_
  · intro w hw
    obtain ⟨hlt, hok⟩ := Finset.mem_filter.1 hw
    refine mem_legalDigits.2 ⟨digits_of_isOk hok, ?_⟩
    exact (hword (Finset.mem_range.1 hlt)).symm ▸ hok
  · intro d hd
    obtain ⟨⟨hop, h1, h2, h3⟩, hok⟩ := mem_legalDigits.1 hd
    have hle := le_of_mem_knownOpcodes _ hop
    refine Finset.mem_filter.2 ⟨Finset.mem_range.2 ?_, hok⟩
    simp only [encodeFields, fieldsOf]
    omega
  · intro w hw
    exact hword (Finset.mem_range.1 (Finset.mem_filter.1 hw).1)
  · intro d hd
    obtain ⟨⟨hop, h1, h2, h3⟩, -⟩ := mem_legalDigits.1 hd
    have hfields : decodeFields (encodeFields (fieldsOf d)) = fieldsOf d :=
      decodeFields_encodeFields (le_of_mem_knownOpcodes _ hop) (by simp only [fieldsOf]; omega)
        (by simp only [fieldsOf]; omega) (by simp only [fieldsOf]; omega)
    simp only [digitsOf, hfields]
    rfl

/-- How many of the 27 mode triples an opcode admits: 18 where one slot is a destination, which has two modes (R79). -/
theorem card_modes_of_opcode : ∀ op ∈ Machine.knownOpcodes,
    (modeTriples.filter (fun m => (decodeWord (encodeFields (fieldsOf (op, m)) : Nat)).isOk = true)).card =
      if op ∈ [1, 2, 3, 7, 8] then 18 else 27 := by decide

theorem card_legalDigits : legalDigits.card = 225 := by
  have hop : ∀ op ∈ Machine.knownOpcodes.toFinset,
      (∑ m ∈ modeTriples, if (decodeWord (encodeFields (fieldsOf (op, m)) : Nat)).isOk = true then 1 else 0) =
        if op ∈ [1, 2, 3, 7, 8] then 18 else 27 := fun op h => by
    rw [← Finset.card_filter, card_modes_of_opcode op (List.mem_toFinset.1 h)]
  rw [legalDigits, Finset.card_filter, Finset.sum_product, Finset.sum_congr rfl hop]
  rfl

end Sys2Proof

/-! The statements. -/

namespace Sys2Proof

/-- Settles O3: the instruction word gives the operation and the modes, and the operand words go back to their slots. -/
theorem decodeOfEncode : Obligations.DecodeOfEncode := by
  intro i rest
  have hcount : (i.withOperands 0 0 0).operandCount = i.operandWords.length := by
    rw [operandCount_withOperands, operandWords_length]
  refine decode_ok_iff.2 ⟨_, decodeWord_encodeWord i, ?_, (withOperandList_operandWords i rest).symm, ?_⟩
  · simp [hcount]
  · rw [hcount]; exact List.drop_left.symm

/-- Settles O4: the instruction word loses its excess digits only, and the operand words are those taken. -/
theorem encodeOfDecode : Obligations.EncodeOfDecode := by
  intro iw ws i rest h
  obtain ⟨j, hj, hlen, rfl, rfl⟩ := decode_ok_iff.1 h
  refine ⟨(decodeWord_ok hj).1, ?_⟩
  rw [encode, encodeWord_of_decodeWord hj, operandWords_withOperandList hlen, List.cons_append, List.take_append_drop]

/-- Settles O7: five opcodes admit 18 mode triples and the other five all 27. -/
theorem legalWordCount : Obligations.LegalWordCount := card_legalWords.trans card_legalDigits

/-- Settles O2: both directions are division by the powers of 10 up to the ten-thousands place. -/
theorem fieldsRoundTrip : Obligations.FieldsRoundTrip :=
  ⟨fun _ hop h1 h2 h3 => decodeFields_encodeFields hop h1 h2 h3, encodeFields_decodeFields⟩

/-- Settles O6: each word is evaluated. -/
theorem writtenOutWordsDecode : Obligations.WrittenOutWordsDecode :=
  ⟨rfl, rfl, rfl, rfl, rfl, rfl, rfl, rfl, rfl, rfl⟩

end Sys2Proof

/-! PROOFS. What every step keeps: the parameters and `L`, the canonical form of memory, its bounds, and in a finite
width that every word is representable (R6, R42, R114, D2). -/

namespace Sys2Proof.Machine

variable {i : Instr} {s t : State}

/-! What an effect changes. -/

theorem Effect.params_eq (h : Effect i s t) : t.params = s.params := by cases h <;> rfl

theorem Effect.initLen_eq (h : Effect i s t) : t.initLen = s.initLen := by cases h <;> rfl

/-- Memory is as it was, or has one word stored at the address the destination names; the word is the result of the ALU
or an input value (R44). -/
theorem Effect.mem_cases (h : Effect i s t) : t.mem = s.mem ∨
    ∃ d v, destOf i = some d ∧ writable s d ∧ (wordsFit s → wordFits s.params v = true)
      ∧ t.mem = s.mem.write (destAddress s d) v := by
  cases h with
  | store d v hi hd hw hv hp => exact .inr ⟨d, v, hd, hw, fun hs => hv hs.1, rfl⟩
  | consume d v rest hi hd hw hq hp =>
    refine .inr ⟨d, v, hd, hw, fun ⟨_, _, _, _, hin, _⟩ => hin v ?_, rfl⟩
    rw [hq]
    exact List.mem_cons_self
  | fault | emit | jump | fallThrough | rebase | halt => exact .inl rfl

/-- What a step changes: nothing but `run_state` where the fetch faults, and the effect of the fetched instruction
otherwise. -/
theorem step_effect (h : step s = .next t) :
    (∃ c, t = takeFault s c) ∨ ∃ i, fetchInstr s = .ok i ∧ Effect i s t := by
  obtain ⟨-, ⟨c, -, rfl⟩ | hi⟩ := step_cases h
  · exact .inl ⟨c, rfl⟩
  · exact .inr hi

theorem step_params (h : step s = .next t) : t.params = s.params := by
  obtain ⟨c, rfl⟩ | ⟨i, -, he⟩ := step_effect h
  · rfl
  · exact he.params_eq

theorem step_initLen (h : step s = .next t) : t.initLen = s.initLen := by
  obtain ⟨c, rfl⟩ | ⟨i, -, he⟩ := step_effect h
  · rfl
  · exact he.initLen_eq

/-- The memory a step leaves (R44): what it was, or one store to the fetched destination. -/
theorem step_mem_cases (h : step s = .next t) : t.mem = s.mem ∨
    ∃ i d v, fetchInstr s = .ok i ∧ destOf i = some d ∧ writable s d ∧ (wordsFit s → wordFits s.params v = true)
      ∧ t.mem = s.mem.write (destAddress s d) v := by
  obtain ⟨c, rfl⟩ | ⟨i, hi, he⟩ := step_effect h
  · exact .inl rfl
  · exact he.mem_cases.imp_right fun ⟨d, v, hstore⟩ => ⟨i, d, v, hi, hstore⟩

theorem step_keeps_canonical (hs : canonicalMemory s) (h : step s = .next t) : canonicalMemory t := by
  obtain hm | ⟨i, d, v, -, -, -, -, hm⟩ := step_mem_cases h
  · simpa only [canonicalMemory, hm] using hs
  · simpa only [canonicalMemory, hm] using Memory.write_wf hs _ v

theorem step_keeps_withinStorage (hs : withinStorage s) (h : step s = .next t) : withinStorage t := by
  intro c hc
  rw [step_params h]
  obtain hm | ⟨i, d, v, -, -, ⟨-, -, hadmitted⟩, -, hm⟩ := step_mem_cases h
  · exact hs c (hm ▸ hc)
  · rcases Memory.mem_write (hm ▸ hc) with rfl | hc
    · exact hadmitted
    · exact hs c hc

/-! Words that fit. -/

/-- Every word of memory fits, the unlisted ones being 0. -/
theorem wordAt_fits (hs : wordsFit s) (a : Int) : wordFits s.params (wordAt s a) = true := by
  obtain ⟨hlegal, -, -, hmem, -⟩ := hs
  rcases Memory.read_mem_or_zero s.mem a.toNat with h | h
  · exact (hmem _ h).2
  · rw [wordAt, h]
    exact (wordFits_zero_one hlegal).1

theorem operandValue_fits (hs : wordsFit s) {o : Operand} (ho : wordFits s.params o.raw = true) :
    wordFits s.params (operandValue s o) = true := by
  unfold operandValue
  split
  · exact wordAt_fits hs _
  · exact ho
  · exact wordAt_fits hs _

/-- The address stored to fits: it is the raw word, or a sum that has passed its check (R114). -/
theorem destAddress_fits {d : Dest} (hw : writable s d) (hd : wordFits s.params d.raw = true) :
    wordFits s.params (destAddress s d : Nat) = true := by
  obtain ⟨hsum, hnonneg, -⟩ := hw
  rw [destAddress, Int.toNat_of_nonneg hnonneg]
  obtain ⟨mode, raw⟩ := d
  cases mode with
  | position => exact hd
  | relative => exact hsum rfl

/-- The words fetched are as many as asked for, each a word of memory (R102). -/
theorem fetchWords_eq_words {a : Int} {n : Nat} {ws : List Int} (h : fetchWords s a n = .ok ws) :
    ws.length = n ∧ ∀ w ∈ ws, ∃ x, w = wordAt s x := by
  induction n generalizing a ws with
  | zero => cases h; simp
  | succ n ih =>
    simp only [fetchWords] at h
    split at h
    · exact nomatch h
    rename_i w hw
    split at h
    · exact nomatch h
    rename_i rest hrest
    cases h
    obtain ⟨hlen, hall⟩ := ih hrest
    refine ⟨by simp [hlen], List.forall_mem_cons.2 ⟨?_, hall⟩⟩
    exact ⟨a, (memRead_ok_iff.1 hw).2.symm⟩

/-- A fetched instruction is well-formed: its operand words are words of memory (R81, R102). -/
theorem fetchInstr_wellFormed (hs : wordsFit s) (h : fetchInstr s = .ok i) : i.wellFormed s.params = true := by
  obtain ⟨-, j, ws, -, hws, rfl⟩ := fetchInstr_ok h
  obtain ⟨hlen, hwords⟩ := fetchWords_eq_words hws
  rw [Instr.wellFormed, operandWords_withOperandList hlen.ge, List.all_eq_true]
  intro w hw
  obtain ⟨x, rfl⟩ := hwords w (List.mem_of_mem_take hw)
  exact wordAt_fits hs x

theorem raw_mem_operandWords {o : Operand} (ho : o ∈ readOperandsOf i) : o.raw ∈ i.operandWords := by
  cases i <;> simp only [readOperandsOf, List.mem_cons, List.not_mem_nil, or_false] at ho <;>
    rcases ho with rfl | rfl <;> simp [Instr.operandWords]

theorem dest_raw_mem_operandWords {d : Dest} (hd : destOf i = some d) : d.raw ∈ i.operandWords := by
  cases i <;> cases hd <;> simp [Instr.operandWords]

/-- A store of a representable word at a representable address keeps every cell representable. -/
theorem write_keeps_fits {p : Params} {m : Memory} {a : Nat} {v : Int}
    (hm : ∀ c ∈ m, wordFits p (c.1 : Nat) = true ∧ wordFits p c.2 = true) (ha : wordFits p a = true)
    (hv : wordFits p v = true) : ∀ c ∈ m.write a v, wordFits p (c.1 : Nat) = true ∧ wordFits p c.2 = true := by
  intro c hc
  rcases Memory.mem_write hc with rfl | hc
  · exact ⟨ha, hv⟩
  · exact hm c hc

/-- A well-formed instruction keeps every word representable, whichever of its effects it has. -/
theorem Effect.keeps_wordsFit (h : Effect i s t) (hi : i.wellFormed s.params = true) (hs : wordsFit s) :
    wordsFit t := by
  have hraw : ∀ w ∈ i.operandWords, wordFits s.params w = true := List.all_eq_true.1 hi
  have hvalue : ∀ o ∈ readOperandsOf i, wordFits s.params (operandValue s o) = true :=
    fun o ho => operandValue_fits hs (hraw _ (raw_mem_operandWords ho))
  have haddr {d : Dest} (hd : destOf i = some d) (hw : writable s d) :
      wordFits s.params (destAddress s d : Nat) = true := destAddress_fits hw (hraw _ (dest_raw_mem_operandWords hd))
  obtain ⟨hlegal, hpc, hrb, hmem, hin, hout⟩ := hs
  cases h with
  | fault | halt => exact ⟨hlegal, hpc, hrb, hmem, hin, hout⟩
  | store d v _ hd hw hv hp => exact ⟨hlegal, hp, hrb, write_keeps_fits hmem (haddr hd hw) (hv hlegal), hin, hout⟩
  | consume d v rest _ hd hw hq hp =>
    obtain ⟨hv, hrest⟩ := List.forall_mem_cons.1 (hq ▸ hin)
    exact ⟨hlegal, hp, hrb, write_keeps_fits hmem (haddr hd hw) hv, hrest, hout⟩
  | emit a _ _ ha hp =>
    refine ⟨hlegal, hp, hrb, hmem, hin, fun v hv => ?_⟩
    rcases List.mem_append.1 hv with hv | hv
    · exact hout v hv
    · exact List.mem_singleton.1 hv ▸ hvalue a ha
  | jump g _ _ hg => exact ⟨hlegal, hvalue g hg, hrb, hmem, hin, hout⟩
  | fallThrough _ hp => exact ⟨hlegal, hp, hrb, hmem, hin, hout⟩
  | rebase a _ _ _ hr hp => exact ⟨hlegal, hp, hr, hmem, hin, hout⟩

/-! The statements. -/

/-- Settles O46: a step leaves memory as it was or makes one write, which keeps the form. -/
theorem stepKeepsCanonicalMemory : Obligations.StepKeepsCanonicalMemory := fun _ _ => step_keeps_canonical

/-- Settles O47: a fetched instruction is well-formed, and every sum, product and next pointer has passed its check. -/
theorem stepKeepsWordsRepresentable : Obligations.StepKeepsWordsRepresentable := by
  intro s t hs h
  obtain ⟨c, rfl⟩ | ⟨i, hi, he⟩ := step_effect h
  · exact hs
  · exact he.keeps_wordsFit (fetchInstr_wellFormed hs hi) hs

/-- Settles O48: the one address stored to has passed the check of the limit. -/
theorem stepKeepsStorageBounds : Obligations.StepKeepsStorageBounds :=
  fun _ _ hs h => ⟨step_keeps_withinStorage hs h, step_initLen h, step_params h⟩

/-- Settles O49: at reset the only words held are `pc` and `rb`, which are 0. -/
theorem resetMeetsInvariants : Obligations.ResetMeetsInvariants := by
  intro p hp
  have hzero : wordFits p 0 = true := (wordFits_zero_one hp).1
  have hnone {α : Type} (q : α → Prop) : ∀ x ∈ ([] : List α), q x := List.forall_mem_nil q
  exact ⟨⟨List.Pairwise.nil, hnone _⟩, ⟨hp, hzero, hzero, hnone _, hnone _, hnone _⟩, hnone _⟩

end Sys2Proof.Machine

/-! PROOFS. The fetch (R100, phases 1 to 6): which words it rejects and with what, where the operand words lie, and what
an accepted word runs; then the states without a step, and what a load and a reset hold. -/

namespace Sys2Proof

/-! Rejected words. -/

theorem exists_mode_of_le {n : Nat} (h : n ≤ 2) : ∃ m, modeOfDigit n = some m :=
  Option.ne_none_iff_exists'.1 fun hnone => not_lt.2 h (modeOfDigit_eq_none.1 hnone)

/-- The lowest slot with a digit above 2 is the one reported (R78). -/
theorem decodeModes_digit_above_two {w slot : Nat} (h1 : 1 ≤ slot) (h3 : slot ≤ 3) (hbad : 2 < digit (slot + 1) w)
    (hlow : ∀ k, 1 ≤ k → k < slot → digit (k + 1) w ≤ 2) :
    decodeModes (decodeFields w) = .error (.invalidMode slot) := by
  have hnone := modeOfDigit_eq_none.2 hbad
  have hmode (k : Nat) (hk : 1 ≤ k) (hlt : k < slot) : ∃ m, modeOfDigit (digit (k + 1) w) = some m :=
    exists_mode_of_le (hlow k hk hlt)
  rw [decodeFields_eq_digits]
  obtain rfl | rfl | rfl : slot = 1 ∨ slot = 2 ∨ slot = 3 := by omega
  · simp [decodeModes, hnone]
  · obtain ⟨m1, hm1⟩ := hmode 1 (by decide) (by decide)
    simp [decodeModes, hm1, hnone]
  · obtain ⟨m1, hm1⟩ := hmode 1 (by decide) (by decide)
    obtain ⟨m2, hm2⟩ := hmode 2 (by decide) (by decide)
    simp [decodeModes, hm1, hm2, hnone]

/-- Three digits up to 2 are three modes (R78). -/
theorem decodeModes_digits_le {w : Nat} (h : ∀ k, 1 ≤ k → k ≤ 3 → digit (k + 1) w ≤ 2) :
    ∃ m1 m2 m3, decodeModes (decodeFields w) = .ok (m1, m2, m3) ∧ digit 2 w = modeDigit m1
      ∧ digit 3 w = modeDigit m2 ∧ digit 4 w = modeDigit m3 := by
  obtain ⟨m1, hm1⟩ := exists_mode_of_le (h 1 (by decide) (by decide))
  obtain ⟨m2, hm2⟩ := exists_mode_of_le (h 2 (by decide) (by decide))
  obtain ⟨m3, hm3⟩ := exists_mode_of_le (h 3 (by decide) (by decide))
  refine ⟨m1, m2, m3, ?_, modeOfDigit_eq_some.1 hm1, modeOfDigit_eq_some.1 hm2, modeOfDigit_eq_some.1 hm3⟩
  simp [decodeFields_eq_digits, decodeModes, hm1, hm2, hm3]

theorem eq_immediate_of_digit {m : Mode} (h : modeDigit m = 1) : m = .immediate := by
  cases m with
  | immediate => rfl
  | position | relative => exact nomatch h

theorem decodeWord_negative {iw : Int} (h : iw < 0) : decodeWord iw = .error .negativeWord := if_pos h

/-- A known opcode with modes that are rejected (R228: the opcode before the modes). -/
theorem decodeWord_modes_rejected {iw : Int} {row : OpcodeRow} {e : WordError} (h : 0 ≤ iw)
    (hrow : findRow (iw.toNat % 100) = some row) (hmodes : decodeModes (decodeFields iw.toNat) = .error e) :
    decodeWord iw = .error e := by
  have hop : (decodeFields iw.toNat).opcode = iw.toNat % 100 := rfl
  simp [decodeWord, not_lt.2 h, hop, hrow, hmodes]

/-- A known opcode with three modes is assembled (R74). -/
theorem decodeWord_eq_assemble {iw : Int} {row : OpcodeRow} {m1 m2 m3 : Mode} (h : 0 ≤ iw)
    (hrow : findRow (iw.toNat % 100) = some row) (hmodes : decodeModes (decodeFields iw.toNat) = .ok (m1, m2, m3)) :
    decodeWord iw = assemble row.op m1 m2 m3 := by
  have hop : (decodeFields iw.toNat).opcode = iw.toNat % 100 := rfl
  simp [decodeWord, not_lt.2 h, hop, hrow, hmodes]

/-- An instruction sees no further word of a list than it has operand words. -/
theorem withOperandList_take (i : Instr) (ws : List Int) :
    i.withOperandList (ws.take i.operandCount) = i.withOperandList ws := by
  cases i <;> simp [Instr.withOperandList, Instr.withOperands, Instr.operandCount, Instr.op, Opcode.row]

end Sys2Proof

namespace Sys2Proof.Machine

variable {s : State} {i : Instr}

/-- A rejected instruction word faults the step, whatever the words after it are (R100, R228). -/
theorem step_rejected {e : WordError} (hready : readyToFetch s) (he : decodeWord (wordAt s s.pc) = .error e) :
    step s = .next (takeFault s (decodeFault (wordAt s s.pc) s.pc e)) :=
  step_of_fetch_error hready.1 (fetchInstr_rejected hready.2 he)

theorem fetchInstr_negative_pc (h : s.pc < 0) : fetchInstr s = .error (.addressError s.pc) := by
  simp [fetchInstr, memRead_negative h]

/-! A finite `MAX_ADDR`. -/

theorem checkAddr_above {limit : Nat} {addr : Int} (hlimit : s.params.maxAddr = some limit) (h : (limit : Int) < addr) :
    checkAddr s addr = .error (.aboveMaxAddr addr) := by
  have hsign : ¬ addr < 0 := by omega
  have habove : ¬ addr.toNat ≤ limit := by omega
  simp [checkAddr, hsign, addrAdmitted, hlimit, habove]

theorem addressable_of_le_limit {limit : Nat} {addr : Int} (hlimit : s.params.maxAddr = some limit) (h0 : 0 ≤ addr)
    (h : addr ≤ limit) : addressable s addr := by
  have hle : addr.toNat ≤ limit := by omega
  exact ⟨h0, by simp [addrAdmitted, hlimit, hle]⟩

theorem memRead_above {limit : Nat} {addr : Int} (hlimit : s.params.maxAddr = some limit) (h : (limit : Int) < addr) :
    memRead s addr = .error (.aboveMaxAddr addr) := by
  simp [memRead, checkAddr_above hlimit h]

/-! The operand words. -/

/-- An operand word that cannot be read faults the fetch of an accepted word (R102; log entry 5). -/
theorem fetchInstr_operand_error {c : FaultCause} (ha : addressable s s.pc) (hi : decodeWord (wordAt s s.pc) = .ok i)
    (hc : fetchWords s (s.pc + 1) i.operandCount = .error c) : fetchInstr s = .error c := by
  simp [fetchInstr, memRead_ok ha, hi, hc]

/-- The words after `pc` are those of `wordsAtPc`, as many as the instruction has operand words. -/
theorem withOperandList_wordsAtPc (j : Instr) :
    j.withOperandList [wordAt s (s.pc + 1), wordAt s (s.pc + 2), wordAt s (s.pc + 3)] =
      j.withOperandList ((List.range j.operandCount).map (fun k : Nat => wordAt s (s.pc + 1 + k))) := by
  have hwords : [wordAt s (s.pc + 1), wordAt s (s.pc + 2), wordAt s (s.pc + 3)] =
      (List.range 3).map (fun k : Nat => wordAt s (s.pc + 1 + k)) := by
    simp [List.range_succ, add_assoc]
  rw [← withOperandList_take, hwords, ← List.map_take, List.take_range, min_eq_left (operandCount_le j)]

/-- The fetch agrees with the decoder on the words at `pc`, where the instruction's own words exist. -/
theorem fetchInstr_of_decode {rest : List Int} (hi : decode (wordsAtPc s) = .ok (i, rest))
    (ha : ∀ k : Nat, k ≤ i.operandCount → addressable s (s.pc + k)) : fetchInstr s = .ok i := by
  obtain ⟨j, hj, -, rfl, -⟩ := decode_ok_iff.1 hi
  have hcount : (j.withOperandList [wordAt s (s.pc + 1), wordAt s (s.pc + 2), wordAt s (s.pc + 3)]).operandCount =
      j.operandCount := operandCount_withOperands ..
  have hpc : addressable s s.pc := by simpa using ha 0 (Nat.zero_le _)
  have hwords (k : Nat) (hk : k < j.operandCount) : addressable s (s.pc + 1 + k) := by
    have hnext := ha (k + 1) (hcount ▸ hk)
    rwa [Nat.cast_succ, add_comm (k : Int) 1, ← add_assoc] at hnext
  exact fetchInstr_ok_iff.2 ⟨hpc, j, _, hj, fetchWords_ok _ hwords, withOperandList_wordsAtPc j⟩

/-! States without a step. -/

theorem step_of_halted {p : Int} (h : s.runState = .halted p) : step s = .refused (.machineHalted p) := by
  simp [step, h]

/-! The statements. -/

/-- Settles O9: the sign is checked before any digit is taken. -/
theorem negativeWordFaults : Obligations.NegativeWordFaults :=
  fun _ hready hw => step_rejected hready (decodeWord_negative hw)

/-- Settles O10: the opcode selects a row, and the modes are rejected at the lowest slot with a digit above 2. -/
theorem modeDigitAboveTwoFaults : Obligations.ModeDigitAboveTwoFaults := by
  intro s slot hready hw hop h1 h3 hbad hlow
  obtain ⟨row, hrow⟩ := Option.ne_none_iff_exists'.1 fun hnone => findRow_eq_none_iff.1 hnone hop
  exact step_rejected hready (decodeWord_modes_rejected hw hrow (decodeModes_digit_above_two h1 h3 hbad hlow))

/-- Settles O11: the three modes are legal as read modes, and the assembly rejects the destination's. -/
theorem immediateDestinationFaults : Obligations.ImmediateDestinationFaults := by
  intro s slot hready hw hdigits hop hbad
  obtain ⟨m1, m2, m3, hmodes, h1, h2, h3⟩ := decodeModes_digits_le hdigits
  refine step_rejected hready (e := .invalidMode slot) ?_
  rcases hop with ⟨hop, rfl⟩ | ⟨hop, rfl⟩
  · obtain rfl := eq_immediate_of_digit (h3.symm.trans hbad)
    simp only [opcodeAt, List.mem_cons, List.not_mem_nil, or_false] at hop
    rcases hop with hop | hop | hop | hop <;> exact decodeWord_eq_assemble hw (by rw [hop]; rfl) hmodes
  · obtain rfl := eq_immediate_of_digit (h1.symm.trans hbad)
    exact decodeWord_eq_assemble hw (by rw [show (wordAt s s.pc).toNat % 100 = 3 from hop]; rfl) hmodes

/-- Settles O32: the fetch of the instruction word checks the sign of `pc`. -/
theorem negativePcFaults : Obligations.NegativePcFaults :=
  fun _ hrun hpc => step_of_fetch_error hrun (fetchInstr_negative_pc hpc)

/-- Settles O31: the fetch gives the decoded instruction, and the step runs it. -/
theorem stepRunsDecodedInstruction : Obligations.StepRunsDecodedInstruction :=
  fun _ _ _ hrun hi ha => step_of_fetch hrun (fetchInstr_of_decode hi ha)

/-- Settles O59: the operand words before the `k`-th are within the limit, and the `k`-th is just above it. -/
theorem operandWordAboveLimitFaults : Obligations.OperandWordAboveLimitFaults := by
  rintro s i limit k ⟨hrun, ha⟩ hlimit hi hk hcount hpc
  obtain ⟨n, rfl⟩ : ∃ n, k = n + 1 := ⟨k - 1, by omega⟩
  have haddr : s.pc + 1 + (n : Int) = s.pc + ((n + 1 : Nat) : Int) := by push_cast; ring
  have hbelow (j : Nat) (hj : j < n) : addressable s (s.pc + 1 + j) :=
    addressable_of_le_limit hlimit (by have := ha.1; omega) (by omega)
  have habove : memRead s (s.pc + 1 + n) = .error (.aboveMaxAddr (s.pc + ((n + 1 : Nat) : Int))) := by
    rw [haddr]
    exact memRead_above hlimit (by omega)
  exact step_of_fetch_error hrun (fetchInstr_operand_error ha hi (fetchWords_first_error hcount hbelow habove))

/-- Settles O16: reads and writes make the one check of the limit. -/
theorem accessAboveLimitFaults : Obligations.AccessAboveLimitFaults := by
  intro s limit addr v hlimit h
  exact ⟨memRead_above hlimit h, by simp [memWrite, checkAddr_above hlimit h]⟩

/-- Settles O34: `step` looks at `run_state` first. -/
theorem endedMachineIsNotStepped : Obligations.EndedMachineIsNotStepped :=
  fun _ => ⟨fun _ => step_of_halted, fun _ => step_of_faulted⟩

/-- Settles O50: the cells of a program, and the fields a load writes. -/
theorem loadSetsEverything : Obligations.LoadSetsEverything :=
  fun _ prog _ => ⟨Memory.read_ofProgram prog, Memory.ofProgram_wf prog, rfl, rfl, rfl, rfl, rfl, rfl⟩

/-- Settles O51: the word at address 0 is 0, whose opcode is unknown. -/
theorem resetRunsIntoZeroWord : Obligations.ResetRunsIntoZeroWord :=
  ⟨rfl, fun _ => rfl, unknownOpcodeFaults State.reset (by decide) (by decide) (by decide)⟩

/-- Settles O55: of the six kinds of fault `retry` accepts one. -/
theorem retryOnlyAfterOutOfInput : Obligations.RetryOnlyAfterOutOfInput := by
  intro s h
  unfold retry
  split
  · rename_i p hp
    exact absurd hp (h p)
  · rfl

end Sys2Proof.Machine

/-! PROOFS. Execution (phases 7 to 10 of R100): for each shape of instruction the state it commits and, in the order of
the checks, the fault it takes otherwise (R228, D8 to D10); the statements on single instructions follow. -/

namespace Sys2Proof.Machine

variable {s : State}

/-! The ALU shape. -/

/-- The four ALU instructions have one shape (R115). -/
theorem exec_aluInstr {p : (Operand → Operand → Dest → Instr) × AluFn} (hp : p ∈ aluInstrs) (a b : Operand) (d : Dest) :
    exec (p.1 a b d) s = finish s (aluToMemory p.2 a b d s) := by
  simp only [aluInstrs, List.mem_cons, List.not_mem_nil, or_false] at hp
  rcases hp with rfl | rfl | rfl | rfl <;> rfl

theorem aluResult_ok {fn : AluFn} {x y : Int} (h : aluOverflows s.params fn x y = false) :
    aluResult s fn x y = .ok (alu fn x y) := aluResult_ok_iff.2 ⟨h, rfl⟩

theorem aluResult_overflow {fn : AluFn} {x y : Int} (h : aluOverflows s.params fn x y = true) :
    aluResult s fn x y = .error (.arithmeticOverflow s.pc) := if_pos h

theorem nextPc_overflow {n : Nat} (h : wordFits s.params (s.pc + n) = false) :
    nextPc s n = .error (.arithmeticOverflow s.pc) := checkedWord_error (by simp [h])

section AluShape

variable {fn : AluFn} {a b : Operand} {d : Dest}

/-- The converse of `aluToMemory_ok`. -/
theorem aluToMemory_completes (ha : readable s a) (hb : readable s b) (hd : writable s d)
    (ho : aluOverflows s.params fn (operandValue s a) (operandValue s b) = false)
    (hp : wordFits s.params (s.pc + 4) = true) :
    aluToMemory fn a b d s =
      .ok { storeAt s (destAddress s d) (alu fn (operandValue s a) (operandValue s b)) with pc := s.pc + 4 } := by
  have hnext : nextPc s 4 = .ok (s.pc + 4) := nextPc_ok hp
  simp [aluToMemory, readOperand_ok ha, readOperand_ok hb, writeAddr_ok hd, aluResult_ok ho, hnext]

theorem aluToMemory_first_error {m : AddrMode} (hm : addrModeOf a.mode = some m) (h : ¬ reaches s m a.raw) :
    aluToMemory fn a b d s = .error (accessFault s m a.raw) := by
  simp [aluToMemory, readOperand_error hm h]

theorem aluToMemory_second_error {m : AddrMode} (ha : readable s a) (hm : addrModeOf b.mode = some m)
    (h : ¬ reaches s m b.raw) : aluToMemory fn a b d s = .error (accessFault s m b.raw) := by
  simp [aluToMemory, readOperand_ok ha, readOperand_error hm h]

theorem aluToMemory_dest_error (ha : readable s a) (hb : readable s b) (h : ¬ writable s d) :
    aluToMemory fn a b d s = .error (accessFault s d.mode d.raw) := by
  simp [aluToMemory, readOperand_ok ha, readOperand_ok hb, writeAddr_error h]

/-- An overflow comes last, and the result's and the next pointer's give one report (R228; log entry 6). -/
theorem aluToMemory_overflow (ha : readable s a) (hb : readable s b) (hd : writable s d)
    (h : aluOverflows s.params fn (operandValue s a) (operandValue s b) = true ∨ wordFits s.params (s.pc + 4) = false) :
    aluToMemory fn a b d s = .error (.arithmeticOverflow s.pc) := by
  simp only [aluToMemory, readOperand_ok ha, readOperand_ok hb, writeAddr_ok hd, ok_bind]
  cases ho : aluOverflows s.params fn (operandValue s a) (operandValue s b) with
  | true => rw [aluResult_overflow ho, error_bind]
  | false =>
    have hnext : nextPc s 4 = .error (.arithmeticOverflow s.pc) := nextPc_overflow (by simpa [ho] using h)
    rw [aluResult_ok ho, ok_bind, hnext, error_bind]

end AluShape

/-! The jump shape. -/

section JumpShape

variable {z : Int} {a g : Operand}

theorem jumpWhen_taken (ha : readable s a) (hg : readable s g) (hz : alu .eq (operandValue s a) 0 = z) :
    jumpWhen z a g s = .ok { s with pc := operandValue s g } := by
  simp [jumpWhen, readOperand_ok ha, readOperand_ok hg, hz]

theorem jumpWhen_not_taken (ha : readable s a) (hg : readable s g) (hz : alu .eq (operandValue s a) 0 ≠ z)
    (hp : wordFits s.params (s.pc + 3) = true) : jumpWhen z a g s = .ok { s with pc := s.pc + 3 } := by
  have hnext : nextPc s 3 = .ok (s.pc + 3) := nextPc_ok hp
  simp [jumpWhen, readOperand_ok ha, readOperand_ok hg, hz, hnext]

theorem jumpWhen_condition_error {m : AddrMode} (hm : addrModeOf a.mode = some m) (h : ¬ reaches s m a.raw) :
    jumpWhen z a g s = .error (accessFault s m a.raw) := by
  simp [jumpWhen, readOperand_error hm h]

/-- The target is resolved before the condition is tested (R153, D9). -/
theorem jumpWhen_target_error {m : AddrMode} (ha : readable s a) (hm : addrModeOf g.mode = some m)
    (h : ¬ reaches s m g.raw) : jumpWhen z a g s = .error (accessFault s m g.raw) := by
  simp [jumpWhen, readOperand_ok ha, readOperand_error hm h]

theorem jumpWhen_overflow (ha : readable s a) (hg : readable s g) (hz : alu .eq (operandValue s a) 0 ≠ z)
    (hp : wordFits s.params (s.pc + 3) = false) : jumpWhen z a g s = .error (.arithmeticOverflow s.pc) := by
  have hnext : nextPc s 3 = .error (.arithmeticOverflow s.pc) := nextPc_overflow hp
  simp [jumpWhen, readOperand_ok ha, readOperand_ok hg, hz, hnext]

end JumpShape

/-- The condition of the jumps: `ALU_EQ(a, 0)` is 1 on zero and 0 on everything else (R115). -/
theorem alu_eq_zero_of_ne {x : Int} (h : x ≠ 0) : alu .eq x 0 = 0 := by simp [alu_eq, h]

theorem alu_eq_zero_of_eq {x : Int} (h : x = 0) : alu .eq x 0 = 1 := by simp [alu_eq, h]

/-! The instructions with one operand. -/

section OneOperand

variable {a : Operand} {d : Dest}

theorem execInput_completes {v : Int} {rest : List Int} (hd : writable s d) (hq : s.inQueue = v :: rest)
    (hp : wordFits s.params (s.pc + 2) = true) :
    execInput d s = .next { s with mem := s.mem.write (destAddress s d) v, inQueue := rest, pc := s.pc + 2 } := by
  have hnext : nextPc s 2 = .ok (s.pc + 2) := nextPc_ok hp
  simp [execInput, writeAddr_ok hd, inPoll, hq, hnext, storeAt]

theorem execInput_dest_error (h : ¬ writable s d) :
    execInput d s = .next (takeFault s (accessFault s d.mode d.raw)) := by
  simp [execInput, writeAddr_error h]

theorem execInput_empty (hd : writable s d) (hq : s.inQueue = []) :
    execInput d s = .next (takeFault s (.outOfInputError s.pc)) := by
  simp [execInput, writeAddr_ok hd, inPoll, hq]

theorem execInput_overflow (hd : writable s d) (hq : s.inQueue ≠ []) (hp : wordFits s.params (s.pc + 2) = false) :
    execInput d s = .next (takeFault s (.arithmeticOverflow s.pc)) := by
  have hnext : nextPc s 2 = .error (.arithmeticOverflow s.pc) := nextPc_overflow hp
  obtain ⟨v, rest, hq⟩ := List.exists_cons_of_ne_nil hq
  simp [execInput, writeAddr_ok hd, inPoll, hq, hnext]

theorem execOutput_completes (ha : readable s a) (hp : wordFits s.params (s.pc + 2) = true) :
    execOutput a s = .next { s with outLog := s.outLog ++ [operandValue s a], pc := s.pc + 2 } := by
  have hnext : nextPc s 2 = .ok (s.pc + 2) := nextPc_ok hp
  simp [execOutput, readOperand_ok ha, hnext, outPush]

theorem execOutput_operand_error {m : AddrMode} (hm : addrModeOf a.mode = some m) (h : ¬ reaches s m a.raw) :
    execOutput a s = .next (takeFault s (accessFault s m a.raw)) := by
  simp [execOutput, readOperand_error hm h]

theorem execOutput_overflow (ha : readable s a) (hp : wordFits s.params (s.pc + 2) = false) :
    execOutput a s = .next (takeFault s (.arithmeticOverflow s.pc)) := by
  have hnext : nextPc s 2 = .error (.arithmeticOverflow s.pc) := nextPc_overflow hp
  simp [execOutput, readOperand_ok ha, hnext]

theorem execAdjustBase_completes (ha : readable s a) (hr : wordFits s.params (s.rb + operandValue s a) = true)
    (hp : wordFits s.params (s.pc + 2) = true) :
    execAdjustBase a s = .next { s with rb := s.rb + operandValue s a, pc := s.pc + 2 } := by
  have hnext : nextPc s 2 = .ok (s.pc + 2) := nextPc_ok hp
  have hsum : aluResult s .add s.rb (operandValue s a) = .ok (s.rb + operandValue s a) :=
    aluResult_ok (by simp [aluOverflows, alu, hr])
  simp [execAdjustBase, readOperand_ok ha, hsum, hnext]

theorem execAdjustBase_operand_error {m : AddrMode} (hm : addrModeOf a.mode = some m) (h : ¬ reaches s m a.raw) :
    execAdjustBase a s = .next (takeFault s (accessFault s m a.raw)) := by
  simp [execAdjustBase, readOperand_error hm h]

/-- The sum's and the next pointer's overflow give one report (log entry 6). -/
theorem execAdjustBase_overflow (ha : readable s a)
    (h : wordFits s.params (s.rb + operandValue s a) = false ∨ wordFits s.params (s.pc + 2) = false) :
    execAdjustBase a s = .next (takeFault s (.arithmeticOverflow s.pc)) := by
  simp only [execAdjustBase, readOperand_ok ha, ok_bind]
  cases hr : wordFits s.params (s.rb + operandValue s a) with
  | false => rw [aluResult_overflow (by simp [aluOverflows, alu, hr]), error_bind, finish_error]
  | true =>
    have hnext : nextPc s 2 = .error (.arithmeticOverflow s.pc) := nextPc_overflow (by simpa [hr] using h)
    rw [aluResult_ok (by simp [aluOverflows, alu, hr]), ok_bind, hnext, error_bind, finish_error]

end OneOperand

/-! The statements: where each instruction completes. -/

/-- Settles O17: the comparisons through the difference are the comparisons of the two integers. -/
theorem aluIsExact : Obligations.AluIsExact := by
  intro p a b
  refine ⟨rfl, fun h => ?_, fun h => ?_, fun h => ?_, fun h => ?_, rfl, rfl⟩
  · rw [alu_lt, if_pos h]
  · rw [alu_lt, if_neg (not_lt.2 h)]
  · rw [alu_eq, if_pos h]
  · rw [alu_eq, if_neg h]

/-- Settles O18: the ALU shape with the sum and with the product. -/
theorem addAndMulComplete : Obligations.AddAndMulComplete := by
  intro s a b d ha hb hd hp
  refine ⟨fun hv => ?_, fun hv => ?_⟩
  · have hadd := aluToMemory_completes (fn := .add) ha hb hd (by simp [aluOverflows, alu, hv]) hp
    exact congrArg (finish s) hadd
  · have hmul := aluToMemory_completes (fn := .mul) ha hb hd (by simp [aluOverflows, alu, hv]) hp
    exact congrArg (finish s) hmul

/-- Settles O19: the ALU shape with the two comparisons, which never overflow. -/
theorem comparisonsComplete : Obligations.ComparisonsComplete := by
  intro s a b d ha hb hd hp
  rw [← alu_lt, ← alu_eq]
  exact ⟨congrArg (finish s) (aluToMemory_completes (fn := .lt) ha hb hd rfl hp),
    congrArg (finish s) (aluToMemory_completes (fn := .eq) ha hb hd rfl hp)⟩

/-- Settles O20: the checked destination, the oldest value and the next pointer are all there. -/
theorem inputCompletes : Obligations.InputCompletes := fun _ _ _ _ _ _ hd hq hp => execInput_completes hd hq hp

/-- Settles O21: the operand is read and the next pointer is a word; the push cannot fail. -/
theorem outputCompletes : Obligations.OutputCompletes := fun _ _ _ _ ha hp => execOutput_completes ha hp

/-- Settles O22: `ALU_EQ(a, 0)` is 0 exactly where `a` is not, so one of the two jumps is taken and the other is not. -/
theorem jumpsComplete : Obligations.JumpsComplete := by
  intro s a g x3 ha hg
  refine ⟨fun h => ⟨?_, fun hp => ?_⟩, fun h => ⟨?_, fun hp => ?_⟩⟩
  · exact congrArg (finish s) (jumpWhen_taken ha hg (alu_eq_zero_of_ne h))
  · exact congrArg (finish s) (jumpWhen_not_taken ha hg (by simp [alu_eq_zero_of_ne h]) hp)
  · exact congrArg (finish s) (jumpWhen_taken ha hg (alu_eq_zero_of_eq h))
  · exact congrArg (finish s) (jumpWhen_not_taken ha hg (by simp [alu_eq_zero_of_eq h]) hp)

/-- Settles O23: the operand is read with the old `rb`, and the sum and the next pointer are words. -/
theorem adjustBaseCompletes : Obligations.AdjustBaseCompletes :=
  fun _ _ _ _ ha hr hp => execAdjustBase_completes ha hr hp

/-- Settles O24: `halt` makes no check, and a halted machine is not stepped. -/
theorem haltCompletes : Obligations.HaltCompletes := fun _ _ _ _ => ⟨rfl, step_of_halted rfl⟩

/-! The statements: where each instruction faults. -/

/-- Settles O25: the four faults of the ALU shape, in the order of its checks. -/
theorem aluInstructionsFaultInOrder : Obligations.AluInstructionsFaultInOrder := by
  intro p hp s a b d
  rw [exec_aluInstr hp]
  refine ⟨fun m hm h => ?_, fun m ha hm h => ?_, fun ha hb h => ?_, fun ha hb hd h => ?_⟩
  · rw [aluToMemory_first_error hm h, finish_error]
  · rw [aluToMemory_second_error ha hm h, finish_error]
  · rw [aluToMemory_dest_error ha hb h, finish_error]
  · rw [aluToMemory_overflow ha hb hd h, finish_error]

/-- Settles O26: the destination, the poll, the next pointer. -/
theorem inputFaultsInOrder : Obligations.InputFaultsInOrder :=
  fun _ _ _ _ => ⟨execInput_dest_error, execInput_empty, execInput_overflow⟩

/-- Settles O27: the operand, then the sum and the next pointer. -/
theorem oneOperandInstructionsFaultInOrder : Obligations.OneOperandInstructionsFaultInOrder :=
  fun _ _ _ _ =>
    ⟨fun _ hm h => ⟨execOutput_operand_error hm h, execAdjustBase_operand_error hm h⟩,
      fun ha hp => ⟨execOutput_overflow ha hp, execAdjustBase_overflow ha (.inr hp)⟩,
      fun ha hr => execAdjustBase_overflow ha (.inl hr)⟩

/-- Settles O28: the faults of the jump shape, which are the same for both conditions until the test. -/
theorem jumpsFaultInOrder : Obligations.JumpsFaultInOrder := by
  intro s a g x3
  refine ⟨fun m hm h => ⟨?_, ?_⟩, fun m ha hm h => ⟨?_, ?_⟩, fun ha hg hp => ⟨fun h => ?_, fun h => ?_⟩⟩
  · exact congrArg (finish s) (jumpWhen_condition_error hm h)
  · exact congrArg (finish s) (jumpWhen_condition_error hm h)
  · exact congrArg (finish s) (jumpWhen_target_error ha hm h)
  · exact congrArg (finish s) (jumpWhen_target_error ha hm h)
  · exact congrArg (finish s) (jumpWhen_overflow ha hg (by simp [alu_eq_zero_of_eq h]) hp)
  · exact congrArg (finish s) (jumpWhen_overflow ha hg (by simp [alu_eq_zero_of_ne h]) hp)

end Sys2Proof.Machine

/-! PROOFS. Frames and safety: what each effect leaves unchanged (R22, R27, R28, D13), and where each kind of fault
comes from (R222 to R227). -/

namespace Sys2Proof.Machine

variable {i : Instr} {s t : State} {c : FaultCause}

/-! What an effect leaves unchanged. -/

theorem Effect.rb_cases (h : Effect i s t) : t.rb = s.rb ∨ i.op = .adjustBase := by
  cases h with
  | rebase a hi => exact .inr hi
  | fault | store | consume | emit | jump | fallThrough | halt => exact .inl rfl

theorem Effect.inQueue_cases (h : Effect i s t) :
    t.inQueue = s.inQueue ∨ i.op = .input ∧ ∃ v, s.inQueue = v :: t.inQueue := by
  cases h with
  | consume d v rest hi hd hw hq => exact .inr ⟨hi, v, hq⟩
  | fault | store | emit | jump | fallThrough | rebase | halt => exact .inl rfl

theorem Effect.outLog_cases (h : Effect i s t) :
    t.outLog = s.outLog ∨ i.op = .output ∧ t.pc = s.pc + 2 ∧ ∃ v, t.outLog = s.outLog ++ [v] := by
  cases h with
  | emit a hi => exact .inr ⟨hi, rfl, operandValue s a, rfl⟩
  | fault | store | consume | jump | fallThrough | rebase | halt => exact .inl rfl

theorem Effect.runState_cases (h : Effect i s t) :
    t.runState = s.runState ∨ (∃ c, t.runState = .faulted c) ∨ i.op = .halt ∧ t = enterHalt s := by
  cases h with
  | fault c => exact .inr (.inl ⟨c, rfl⟩)
  | halt hi => exact .inr (.inr ⟨hi, rfl⟩)
  | store | consume | emit | jump | fallThrough | rebase => exact .inl rfl

theorem op_of_destOf_some {d : Dest} (h : destOf i = some d) :
    i.op ∈ [Opcode.add, .mul, .input, .lessThan, .equals] := by
  cases i with
  | add | mul | input | lessThan | equals => simp [Instr.op]
  | output | jumpIfTrue | jumpIfFalse | adjustBase | halt => exact nomatch h

theorem op_of_destOf_none (h : destOf i = none) :
    i.op ∈ [Opcode.output, .jumpIfTrue, .jumpIfFalse, .adjustBase, .halt] := by
  cases i with
  | output | jumpIfTrue | jumpIfFalse | adjustBase | halt => simp [Instr.op]
  | add | mul | input | lessThan | equals => exact nomatch h

theorem exec_halt (hi : i.op = .halt) : exec i s = .next (enterHalt s) := by
  cases i with
  | halt => rfl
  | add | mul | input | output | jumpIfTrue | jumpIfFalse | lessThan | equals | adjustBase => exact nomatch hi

/-- A store changes no word but the one the destination names (R44). -/
theorem read_write_of_writeAddr_ne {d : Dest} {a : Nat} {v : Int} (hw : writable s d) (ha : writeAddr s d ≠ .ok a) :
    (s.mem.write (destAddress s d) v).read a = s.mem.read a :=
  Memory.read_write_other _ v fun e => ha (e.symm ▸ writeAddr_ok hw)

theorem memRead_storeAt_same (hm : canonicalMemory s) {addr : Int} (ha : addressable s addr) (v : Int) :
    memRead (storeAt s addr.toNat v) addr = .ok v := by
  rw [memRead_ok ((addressable_storeAt _ v).2 ha), wordAt_storeAt_same hm]

/-! What a step leaves unchanged. -/

/-- The opcode digits of an operation that has been fetched. -/
theorem opcodeAt_of_op {op : Opcode} (hf : fetchInstr s = .ok i) (hi : i.op = op) : opcodeAt s = op.row.code :=
  hi ▸ opcodeAt_of_fetch hf

/-- A step leaves the sink alone, or is the one of an `output`, which pushes one value and advances by 2 (R141). -/
theorem step_outLog_cases (h : step s = .next t) :
    t.outLog = s.outLog ∨ opcodeAt s = 4 ∧ t.pc = s.pc + 2 ∧ ∃ v, t.outLog = s.outLog ++ [v] := by
  obtain ⟨c, rfl⟩ | ⟨i, hf, he⟩ := step_effect h
  · exact .inl rfl
  · exact he.outLog_cases.imp_right fun ⟨hi, hpush⟩ => ⟨opcodeAt_of_op hf hi, hpush⟩

/-- Every instruction answers a next state. -/
theorem exec_total (i : Instr) (s : State) : ∃ t, exec i s = .next t := by
  cases i with
  | halt => exact ⟨_, rfl⟩
  | add | mul | input | output | jumpIfTrue | jumpIfFalse | lessThan | equals | adjustBase => exact finish_total s _

theorem step_total (hrun : s.runState = .running) : ∃ t, step s = .next t := by
  cases hf : fetchInstr s with
  | error c => exact ⟨_, step_of_fetch_error hrun hf⟩
  | ok i => rw [step_of_fetch hrun hf]; exact exec_total i s

/-! Where a fault comes from. -/

/-- The kinds an executing instruction can raise, each with its reason (R222, R224, R226, D2). -/
theorem Raises.kinds (h : Raises i s c) :
    (c = .arithmeticOverflow s.pc ∧ s.params.wordBits ≠ none)
      ∨ (∃ x, c = .addressError x ∧ x < 0 ∧ x ∈ operandAddrs s i)
      ∨ (∃ x, c = .aboveMaxAddr x ∧ s.params.maxAddr ≠ none)
      ∨ (c = .outOfInputError s.pc ∧ i.op = .input ∧ s.inQueue = [] ∧ ∃ d, destOf i = some d ∧ writable s d) := by
  cases h with
  | access m raw h hm =>
    obtain hov | ⟨hneg, haddr⟩ | ⟨habove, hlimit⟩ := accessFault_cases h
    · exact .inl hov
    · exact .inr (.inl ⟨_, haddr, hneg, hm⟩)
    · exact .inr (.inr (.inl ⟨_, habove, hlimit⟩))
  | overflow hw => exact .inl ⟨rfl, hw⟩
  | empty hi hq d hd hw => exact .inr (.inr (.inr ⟨rfl, hi, hq, d, hd, hw⟩))

/-- A step that ends faulted has its fault from the fetch or from the instruction fetched. -/
theorem step_fault_source (h : step s = .next t) (ht : t.runState = .faulted c) :
    fetchInstr s = .error c ∨ ∃ i, fetchInstr s = .ok i ∧ Raises i s c := by
  obtain ⟨hrun, -⟩ := step_cases h
  cases hf : fetchInstr s with
  | error e =>
    rw [step_of_fetch_error hrun hf] at h
    cases h
    cases ht
    exact .inl rfl
  | ok i => exact .inr ⟨i, rfl, exec_raises hrun (step_of_fetch hrun hf ▸ h) ht⟩

/-! The statements: frames. -/

/-- Settles O29: a storing instruction is none of those whose effects change `rb`, the sink or `run_state`. -/
theorem storingInstructionsFrame : Obligations.StoringInstructionsFrame := by
  intro i d s t hd h
  have he := exec_effect h
  have hop := op_of_destOf_some hd
  refine ⟨he.rb_cases.resolve_right ?_, he.initLen_eq, he.outLog_cases.resolve_right ?_, he.params_eq, ?_, ?_, ?_, ?_⟩
  · intro hi; simp [hi] at hop
  · rintro ⟨hi, -⟩; simp [hi] at hop
  · exact fun hne => he.inQueue_cases.resolve_right fun ⟨hi, _⟩ => hne hi
  · exact he.inQueue_cases.imp_right And.right
  · refine he.runState_cases.imp_right fun hend => hend.resolve_right ?_
    rintro ⟨hi, -⟩
    simp [hi] at hop
  · intro a ha
    obtain hm | ⟨d', v, hd', hw, -, hm⟩ := he.mem_cases
    · rw [hm]
    · obtain rfl : d = d' := Option.some.inj (hd.symm.trans hd')
      rw [hm, read_write_of_writeAddr_ne hw ha]

/-- Settles O30: an instruction without a destination has no effect that stores or consumes. -/
theorem otherInstructionsFrame : Obligations.OtherInstructionsFrame := by
  intro i s t hd h
  have he := exec_effect h
  have hop := op_of_destOf_none hd
  refine ⟨he.mem_cases.resolve_right ?_, he.initLen_eq, he.inQueue_cases.resolve_right ?_, he.params_eq, ?_, ?_, ?_, ?_⟩
  · rintro ⟨d, v, hd', -⟩; simp [hd] at hd'
  · rintro ⟨hi, -⟩; simp [hi] at hop
  · exact fun hne => he.outLog_cases.resolve_right fun ⟨hi, _⟩ => hne hi
  · exact fun hne => he.rb_cases.resolve_right hne
  · exact fun hne => he.runState_cases.imp_right fun hend => hend.resolve_right fun ⟨hi, _⟩ => hne hi
  · intro hi
    rw [exec_halt hi] at h
    cases h
    rfl

/-! The statements: what only some steps do. -/

/-- Settles O33: fetch and execution answer a next state each, and a step has three ends. -/
theorem runningMachineSteps : Obligations.RunningMachineSteps := by
  intro s hrun
  obtain ⟨t, h⟩ := step_total hrun
  refine ⟨t, h, ?_⟩
  obtain ⟨c, rfl⟩ | rfl | ht := step_ends h
  · exact .inr (.inr ⟨c, rfl⟩)
  · exact .inr (.inl rfl)
  · exact .inl ht

/-- Settles O36: of the effects only that of `halt` leaves the machine halted. -/
theorem onlyOpcode99Halts : Obligations.OnlyOpcode99Halts := by
  intro s t p h ht
  obtain ⟨hrun, ⟨c, -, rfl⟩ | ⟨i, hf, he⟩⟩ := step_cases h
  · exact nomatch ht
  obtain hsame | ⟨c, hc⟩ | ⟨hi, rfl⟩ := he.runState_cases
  · rw [hsame, hrun] at ht; exact nomatch ht
  · rw [hc] at ht; exact nomatch ht
  · cases ht
    exact ⟨rfl, opcodeAt_of_op hf hi, rfl⟩

/-- Settles O37: of the effects only that of `adjust-base` changes `rb`. -/
theorem onlyAdjustBaseWritesRb : Obligations.OnlyAdjustBaseWritesRb := by
  intro s t h hrb
  obtain ⟨c, rfl⟩ | ⟨i, hf, he⟩ := step_effect h
  · exact absurd rfl hrb
  · exact opcodeAt_of_op hf (he.rb_cases.resolve_left hrb)

/-- Settles O38: of the effects only that of `input` changes the source. -/
theorem onlyInputConsumes : Obligations.OnlyInputConsumes := by
  intro s t h
  obtain ⟨c, rfl⟩ | ⟨i, hf, he⟩ := step_effect h
  · exact .inl rfl
  · exact he.inQueue_cases.imp_right fun ⟨hi, hv⟩ => ⟨opcodeAt_of_op hf hi, hv⟩

/-- Settles O39: of the effects only that of `output` changes the sink. -/
theorem onlyOutputEmits : Obligations.OnlyOutputEmits :=
  fun _ _ h => (step_outLog_cases h).imp_right fun ⟨hop, _, hv⟩ => ⟨hop, hv⟩

/-- Settles O40: the one store is at the address of the fetched destination, which only five opcodes have. -/
theorem onlyTheDestinationIsStored : Obligations.OnlyTheDestinationIsStored := by
  intro s t h
  obtain hm | ⟨i, d, v, hf, hd, hw, -, hm⟩ := step_mem_cases h
  · exact ⟨fun a _ => by rw [hm], fun _ => hm⟩
  refine ⟨fun a ha => ?_, fun hop => absurd ?_ hop⟩
  · rw [hm, read_write_of_writeAddr_ne hw (ha i d hf hd)]
  · have hstoring := op_of_destOf_some hd
    simp only [List.mem_cons, List.not_mem_nil, or_false] at hstoring
    rcases hstoring with hi | hi | hi | hi | hi <;> rw [opcodeAt_of_op hf hi] <;> decide

/-! The statements: where faults come from. -/

/-- Settles O41: of the faults of the fetch and of an instruction, the address errors are these. -/
theorem addressErrorsComeFromOperands : Obligations.AddressErrorsComeFromOperands := by
  intro s t x h ht
  obtain hf | ⟨i, hi, hr⟩ := step_fault_source h ht
  · obtain ⟨hneg, hx⟩ | ⟨_, hx, -⟩ | ⟨_, _, hx⟩ | ⟨_, _, _, hx⟩ := fetchInstr_error hf <;> cases hx
    exact ⟨hneg, .inl rfl⟩
  · obtain ⟨hx, -⟩ | ⟨_, hx, hneg, hmem⟩ | ⟨_, hx, -⟩ | ⟨hx, -⟩ := hr.kinds <;> cases hx
    exact ⟨hneg, .inr ⟨i, hi, hmem⟩⟩

/-- Settles O42: an overflow has a finite `WORD_BITS` as its reason, and a limit fault a finite `MAX_ADDR`. -/
theorem defaultParametersNeverLimit : Obligations.DefaultParametersNeverLimit := by
  intro s t c h ht
  refine ⟨fun hdefault p => ?_, fun hdefault a => ?_⟩ <;> rintro rfl <;>
    obtain hf | ⟨i, -, hr⟩ := step_fault_source h ht
  · obtain ⟨-, hc⟩ | ⟨_, hc, -⟩ | ⟨_, _, hc⟩ | ⟨_, _, _, hc⟩ := fetchInstr_error hf <;> exact nomatch hc
  · obtain ⟨hc, hbits⟩ | ⟨_, hc, -⟩ | ⟨_, hc, -⟩ | ⟨hc, -⟩ := hr.kinds <;> cases hc
    exact hbits hdefault
  · obtain ⟨-, hc⟩ | ⟨_, hc, hlimit⟩ | ⟨_, _, hc⟩ | ⟨_, _, _, hc⟩ := fetchInstr_error hf <;> cases hc
    exact hlimit hdefault
  · obtain ⟨hc, -⟩ | ⟨_, hc, -⟩ | ⟨_, hc, hlimit⟩ | ⟨hc, -⟩ := hr.kinds <;> cases hc
    exact hlimit hdefault

/-- Settles O44: the decoder's kinds are not among those an instruction raises, and `halt` ends halted. -/
theorem faultKindsByInstruction : Obligations.FaultKindsByInstruction := by
  intro i s t c hrun h ht
  have hhalt : i.op ≠ .halt := by
    intro hi
    rw [exec_halt hi] at h
    cases h
    exact nomatch ht
  have hraises := exec_raises hrun h ht
  refine ⟨fun n p => ?_, fun w p k => ?_, fun p => ?_, hhalt⟩ <;> rintro rfl <;>
    obtain ⟨hc, -⟩ | ⟨_, hc, -⟩ | ⟨_, hc, -⟩ | ⟨hc, hi, -⟩ := hraises.kinds <;> cases hc
  exact ⟨hi, rfl⟩

/-- Settles O43: the store and the fetch are at the same address, and nothing is kept between them. -/
theorem nextFetchSeesTheStore : Obligations.NextFetchSeesTheStore := by
  intro p hp s a b d hm ha hb hd ho hpc haddr
  refine ⟨_, by rw [exec_aluInstr hp, aluToMemory_completes ha hb hd ho hpc, finish_ok], rfl, ?_⟩
  have hnext : addressable s (s.pc + 4) := haddr ▸ hd.2
  have hstored : destAddress s d = (s.pc + 4).toNat := congrArg Int.toNat haddr
  rw [hstored]
  exact memRead_storeAt_same hm hnext _

end Sys2Proof.Machine

/-! PROOFS. Memory as a whole: any sequence of writes keeps the document's pair and the one list alike (R24, R42). -/

namespace Sys2Proof.Machine

@[simp] theorem SplitMemory.write_base_length (m : SplitMemory) (a : Nat) (v : Int) :
    (m.write a v).base.length = m.base.length := by
  unfold SplitMemory.write
  split
  · simp
  · rfl

/-- Any writes keep the keys of the extension map `>= L`, keep `L`, and are the same writes to the view. -/
theorem SplitMemory.foldl_write (ws : List (Nat × Int)) {m : SplitMemory} (hm : m.wf) :
    (ws.foldl (fun m w => SplitMemory.write m w.1 w.2) m).wf
      ∧ (ws.foldl (fun m w => SplitMemory.write m w.1 w.2) m).base.length = m.base.length
      ∧ (ws.foldl (fun m w => SplitMemory.write m w.1 w.2) m).view =
          ws.foldl (fun mem w => Memory.write mem w.1 w.2) m.view := by
  induction ws generalizing m with
  | nil => exact ⟨hm, rfl, rfl⟩
  | cons w ws ih =>
    obtain ⟨hwf, hlen, hview⟩ := ih (write_wf hm w.1 w.2)
    rw [write_base_length] at hlen
    rw [view_write hm] at hview
    exact ⟨hwf, hlen, hview⟩

/-- Settles O14: the writes are followed one by one, from a load, whose extension map is empty. -/
theorem oneListRefinesSplitMemory : Obligations.OneListRefinesSplitMemory := by
  intro prog ws
  have hload : (SplitMemory.load prog).wf := fun _ hc => absurd hc List.not_mem_nil
  obtain ⟨hwf, hlen, hview⟩ := SplitMemory.foldl_write ws hload
  exact ⟨hwf, hlen, hview, SplitMemory.read_view hwf⟩

end Sys2Proof.Machine

/-! PROOFS. What a step does not see: `L` and the sink in no instruction, the input source in `input` alone (R27 to R29,
R42). Both machines run the same instruction and differ afterwards as they did before. -/

namespace Sys2Proof.Machine

/-- The same machine with another `L`, sink and input source. -/
def State.withChannels (s : State) (n : Nat) (log q : List Int) : State :=
  { s with initLen := n, outLog := log, inQueue := q }

variable {i : Instr} {s t : State} {n : Nat} {log q : List Int}

/-! The shared operations do not see them. -/

theorem memRead_withChannels (a : Int) : memRead (s.withChannels n log q) a = memRead s a := rfl

theorem readOperand_withChannels (o : Operand) : readOperand (s.withChannels n log q) o = readOperand s o := rfl

theorem writeAddr_withChannels (d : Dest) : writeAddr (s.withChannels n log q) d = writeAddr s d := rfl

theorem aluResult_withChannels (fn : AluFn) (x y : Int) :
    aluResult (s.withChannels n log q) fn x y = aluResult s fn x y := rfl

theorem nextPc_withChannels (k : Nat) : nextPc (s.withChannels n log q) k = nextPc s k := rfl

theorem fetchWords_withChannels (a : Int) (k : Nat) :
    fetchWords (s.withChannels n log q) a k = fetchWords s a k := by
  induction k generalizing a with
  | zero => rfl
  | succ k ih => simp only [fetchWords, memRead_withChannels, ih]

theorem fetchInstr_withChannels : fetchInstr (s.withChannels n log q) = fetchInstr s := by
  have hpc : (s.withChannels n log q).pc = s.pc := rfl
  simp only [fetchInstr, hpc, memRead_withChannels, fetchWords_withChannels]

/-! The instructions. -/

theorem aluToMemory_withChannels (fn : AluFn) (a b : Operand) (d : Dest) :
    aluToMemory fn a b d (s.withChannels n log q) =
      (State.withChannels · n log q) <$> aluToMemory fn a b d s := by
  simp only [aluToMemory, readOperand_withChannels, writeAddr_withChannels, aluResult_withChannels,
    nextPc_withChannels, map_bind]
  rfl

theorem jumpWhen_withChannels (z : Int) (a g : Operand) :
    jumpWhen z a g (s.withChannels n log q) = (State.withChannels · n log q) <$> jumpWhen z a g s := by
  simp only [jumpWhen, readOperand_withChannels, nextPc_withChannels, map_bind, apply_ite]
  rfl

theorem finish_withChannels {r : Except FaultCause State} (h : finish s r = .next t) :
    finish (s.withChannels n log q) ((State.withChannels · n log q) <$> r) = .next (t.withChannels n log q) := by
  obtain rfl | ⟨c, rfl, rfl⟩ := finish_next h <;> rfl

/-- An instruction that neither consumes nor emits. -/
theorem exec_withChannels_silent (hin : i.op ≠ .input) (hout : i.op ≠ .output) (h : exec i s = .next t) :
    exec i (s.withChannels n log q) = .next (t.withChannels n log q) := by
  cases i with
  | add | mul | lessThan | equals =>
    exact (congrArg (finish _) (aluToMemory_withChannels ..)).trans (finish_withChannels h)
  | jumpIfTrue | jumpIfFalse => exact (congrArg (finish _) (jumpWhen_withChannels ..)).trans (finish_withChannels h)
  | adjustBase a x2 x3 =>
    refine Eq.trans (congrArg (finish _) ?_) (finish_withChannels h)
    simp only [readOperand_withChannels, nextPc_withChannels, map_bind]
    rfl
  | halt => cases h; rfl
  | input => exact absurd rfl hin
  | output => exact absurd rfl hout

/-- `output` pushes the same value after whatever the sink holds. -/
theorem execOutput_withChannels {a : Operand} (h : execOutput a s = .next t) :
    execOutput a (s.withChannels n log q) =
      .next (t.withChannels n (log ++ t.outLog.drop s.outLog.length) q) := by
  unfold execOutput at h ⊢
  rw [readOperand_withChannels, nextPc_withChannels]
  cases hx : readOperand s a with
  | error c => rw [hx] at h; cases h; simp [State.withChannels, takeFault]
  | ok x =>
    cases hp : nextPc s 2 with
    | error c => rw [hx, hp] at h; cases h; simp [State.withChannels, takeFault]
    | ok p => rw [hx, hp] at h; cases h; simp [State.withChannels, outPush]

/-- `input` from the same source. -/
theorem execInput_withChannels {d : Dest} (h : execInput d s = .next t) :
    execInput d (s.withChannels n log s.inQueue) = .next (t.withChannels n log t.inQueue) := by
  have hpoll : inPoll (s.withChannels n log s.inQueue) =
      (inPoll s).map fun r => (r.1, r.2.withChannels n log r.2.inQueue) := by
    unfold inPoll
    cases hq : s.inQueue <;> simp [State.withChannels]
  unfold execInput at h ⊢
  rw [writeAddr_withChannels, nextPc_withChannels, hpoll]
  cases hw : writeAddr s d with
  | error c => rw [hw] at h; cases h; rfl
  | ok a =>
    cases hv : inPoll s with
    | none => rw [hw, hv] at h; cases h; rfl
    | some r =>
      cases hp : nextPc s 2 with
      | error c => rw [hw, hv, hp] at h; cases h; rfl
      | ok p => rw [hw, hv, hp] at h; cases h; rfl

/-- What an instruction gives to the sink and takes from the source, in a machine that differs in them. -/
theorem exec_withChannels (h : exec i s = .next t) (hq : q = s.inQueue ∨ i.op ≠ .input) :
    exec i (s.withChannels n log q) =
      .next (t.withChannels n (log ++ t.outLog.drop s.outLog.length) (if i.op = .input then t.inQueue else q)) := by
  have hlog : i.op ≠ .output → log ++ t.outLog.drop s.outLog.length = log := fun hout => by
    rw [(exec_effect h).outLog_cases.resolve_right fun ⟨hi, _⟩ => hout hi, List.drop_length, List.append_nil]
  by_cases hin : i.op = .input
  · obtain rfl := hq.resolve_right (not_not.2 hin)
    rw [hlog (by simp [hin]), if_pos hin]
    cases i with
    | input => exact execInput_withChannels h
    | add | mul | output | jumpIfTrue | jumpIfFalse | lessThan | equals | adjustBase | halt => exact nomatch hin
  · rw [if_neg hin]
    by_cases hout : i.op = .output
    · cases i with
      | output => exact execOutput_withChannels h
      | add | mul | input | jumpIfTrue | jumpIfFalse | lessThan | equals | adjustBase | halt => exact nomatch hout
    · rw [hlog hout]
      exact exec_withChannels_silent hin hout h

/-! The step. -/

theorem row_code_eq_three_iff (op : Opcode) : op.row.code = 3 ↔ op = .input := by cases op <;> decide

theorem step_withChannels (h : step s = .next t) (hq : q = s.inQueue ∨ opcodeAt s ≠ 3) :
    step (s.withChannels n log q) =
      .next (t.withChannels n (log ++ t.outLog.drop s.outLog.length) (if opcodeAt s = 3 then t.inQueue else q)) := by
  obtain ⟨hrun, -⟩ := step_cases h
  have hrun' : (s.withChannels n log q).runState = .running := hrun
  cases hf : fetchInstr s with
  | error c =>
    rw [step_of_fetch_error hrun hf] at h
    cases h
    have hqueue : (if opcodeAt s = 3 then s.inQueue else q) = q := by
      split
      · rename_i h3; exact (hq.resolve_right (not_not.2 h3)).symm
      · rfl
    rw [step_of_fetch_error hrun' (fetchInstr_withChannels.trans hf), takeFault_outLog, takeFault_inQueue, hqueue,
      List.drop_length, List.append_nil]
    rfl
  | ok i =>
    rw [step_of_fetch hrun hf] at h
    rw [step_of_fetch hrun' (fetchInstr_withChannels.trans hf)]
    simp only [opcodeAt_of_fetch hf, ne_eq, row_code_eq_three_iff] at hq ⊢
    exact exec_withChannels h hq

/-- Settles O45: the operations a step is made of do not see them, but for the poll of `input`. -/
theorem stepIgnoresSinkAndLength : Obligations.StepIgnoresSinkAndLength :=
  fun _ _ _ _ _ h hq => step_withChannels h hq

end Sys2Proof.Machine

/-! PROOFS. The host (47_host_interface.md): runs under fuel, restore, retry, and the invariant of memory over every
operation (R190 to R199, D14, D15, D18, D19). -/

namespace Sys2Proof.Machine

variable {s t : State}

/-! A run, step by step. -/

theorem runLoop_succ_of_step (h : step s = .next t) (k : Nat) : runLoop (k + 1) s = runLoop k t := by
  simp [runLoop, h]

/-- A machine that is not running has no step. -/
theorem step_refused_of_ended (h : s.runState ≠ .running) : ∃ r, step s = .refused r := by
  cases hs : s.runState with
  | running => exact absurd hs h
  | halted p => exact ⟨_, step_of_halted hs⟩
  | faulted c => exact ⟨_, step_of_faulted hs⟩

theorem runLoop_of_ended (h : s.runState ≠ .running) (k : Nat) : runLoop k s = s := by
  obtain ⟨r, hr⟩ := step_refused_of_ended h
  cases k <;> simp [runLoop, hr]

theorem runLoop_add (n k : Nat) (s : State) : runLoop (n + k) s = runLoop k (runLoop n s) := by
  induction n generalizing s with
  | zero => rw [Nat.zero_add]; rfl
  | succ n ih =>
    by_cases hrun : s.runState = .running
    · obtain ⟨t, h⟩ := step_total hrun
      rw [Nat.succ_add_eq_add_succ, Nat.add_succ, runLoop_succ_of_step h, runLoop_succ_of_step h, ih]
    · simp only [runLoop_of_ended hrun]

/-- What every step keeps, a run keeps. -/
theorem runLoop_keeps {P : State → Prop} (hstep : ∀ s t, P s → step s = .next t → P t) (n : Nat) (hs : P s) :
    P (runLoop n s) := by
  induction n generalizing s with
  | zero => exact hs
  | succ n ih =>
    by_cases hrun : s.runState = .running
    · obtain ⟨t, h⟩ := step_total hrun
      rw [runLoop_succ_of_step h]
      exact ih (hstep s t hs h)
    · rwa [runLoop_of_ended hrun]

theorem runLoop_params (n : Nat) (s : State) : (runLoop n s).params = s.params :=
  runLoop_keeps (P := fun t => t.params = s.params) (fun _ _ hs h => (step_params h).trans hs) n rfl

/-- What the sink has received stays (R28). -/
theorem step_outLog_prefix (h : step s = .next t) : s.outLog <+: t.outLog := by
  obtain hsame | ⟨-, -, v, hpush⟩ := step_outLog_cases h
  · rw [hsame]
  · exact ⟨[v], hpush.symm⟩

theorem runLoop_outLog_prefix (n : Nat) (s : State) : s.outLog <+: (runLoop n s).outLog :=
  runLoop_keeps (P := fun t => s.outLog <+: t.outLog) (fun _ _ hs h => hs.trans (step_outLog_prefix h)) n
    List.prefix_rfl

/-! A run with another sink. -/

/-- The same machine with another sink. -/
def State.withSink (s : State) (log : List Int) : State := { s with outLog := log }

/-- A step does not see the sink, and pushes the same value. -/
theorem step_withSink (log : List Int) (h : step s = .next t) :
    step (s.withSink log) = .next (t.withSink (log ++ t.outLog.drop s.outLog.length)) := by
  have hqueue : (if opcodeAt s = 3 then t.inQueue else s.inQueue) = t.inQueue := by
    split
    · rfl
    · rename_i h3; exact ((onlyInputConsumes s t h).resolve_right fun ⟨hop, _⟩ => h3 hop).symm
  have hstep := step_withChannels (n := s.initLen) (log := log) h (.inl rfl)
  refine hstep.trans ?_
  rw [hqueue, ← step_initLen h]
  rfl

/-- Two successive appends to the sink are one. -/
theorem drop_append_drop {a b c : List Int} (hab : a <+: b) (hbc : b <+: c) :
    b.drop a.length ++ c.drop b.length = c.drop a.length := by
  obtain ⟨x, rfl⟩ := hab
  obtain ⟨y, rfl⟩ := hbc
  simp

theorem runLoop_withSink (n : Nat) (s : State) (log : List Int) :
    runLoop n (s.withSink log) = (runLoop n s).withSink (log ++ (runLoop n s).outLog.drop s.outLog.length) := by
  induction n generalizing s log with
  | zero => simp [runLoop]
  | succ n ih =>
    by_cases hrun : s.runState = .running
    · obtain ⟨t, h⟩ := step_total hrun
      rw [runLoop_succ_of_step (step_withSink log h), runLoop_succ_of_step h, ih, List.append_assoc,
        drop_append_drop (step_outLog_prefix h) (runLoop_outLog_prefix n t)]
    · have hrun' : (s.withSink log).runState ≠ .running := hrun
      simp [runLoop_of_ended hrun, runLoop_of_ended hrun']

/-- A restored checkpoint is the machine it was taken of but for the sink, where the source and the parameters agree. -/
theorem restore_checkpoint {u : State} (hrun : s.runState = .running) (hq : u.inQueue = s.inQueue)
    (hp : u.params = s.params) : restore u (checkpoint s) = s.withSink u.outLog := by
  simp only [restore, checkpoint, State.withSink, hrun, hq, hp]

/-! Run to output. -/

theorem outputLoop_succ_of_step {n : Nat} (hn : s.outLog.length = n) (h : step s = .next t) (k : Nat) :
    outputLoop n (k + 1) s = outputLoop n k t := by
  simp [outputLoop, hn, h]

theorem outputLoop_of_length_ne {n : Nat} (hn : s.outLog.length ≠ n) (k : Nat) : outputLoop n k s = s := by
  cases k <;> simp [outputLoop, hn]

theorem outputLoop_of_ended (h : s.runState ≠ .running) (n k : Nat) : outputLoop n k s = s := by
  obtain ⟨r, hr⟩ := step_refused_of_ended h
  cases k <;> simp [outputLoop, hr]

/-- The first value a run pushes is `v`, in the step after the first `k` (R196). -/
structure FirstPush (s : State) (k : Nat) (v : Int) : Prop where
  silent : ∀ j : Nat, j ≤ k → (runLoop j s).outLog = s.outLog
  step_eq : step (runLoop k s) = .next (runLoop (k + 1) s)
  opcode : opcodeAt (runLoop k s) = 4
  pc : (runLoop (k + 1) s).pc = (runLoop k s).pc + 2
  pushed : (runLoop (k + 1) s).outLog = s.outLog ++ [v]

/-- A push that comes first after a silent step comes first. -/
theorem FirstPush.of_step {k : Nat} {v : Int} (h : step s = .next t) (hsame : t.outLog = s.outLog)
    (hpush : FirstPush t k v) : FirstPush s (k + 1) v := by
  obtain ⟨silent, step_eq, opcode, pc, pushed⟩ := hpush
  refine ⟨fun j hj => ?_, ?_, ?_, ?_, ?_⟩
  · cases j with
    | zero => rfl
    | succ j => rw [runLoop_succ_of_step h, silent j (Nat.le_of_succ_le_succ hj), hsame]
  · simpa only [runLoop_succ_of_step h] using step_eq
  · simpa only [runLoop_succ_of_step h] using opcode
  · simpa only [runLoop_succ_of_step h] using pc
  · rw [runLoop_succ_of_step h, pushed, hsame]

/-- A run to output is a run: the whole one where nothing is pushed, or up to the first push (R196, D18). -/
theorem outputLoop_cases (n : Nat) (s : State) :
    (outputLoop s.outLog.length n s = runLoop n s ∧ (runLoop n s).outLog = s.outLog)
      ∨ ∃ k v, k < n ∧ outputLoop s.outLog.length n s = runLoop (k + 1) s ∧ FirstPush s k v := by
  induction n generalizing s with
  | zero => exact .inl ⟨rfl, rfl⟩
  | succ n ih =>
    by_cases hrun : s.runState = .running
    · obtain ⟨t, h⟩ := step_total hrun
      rw [outputLoop_succ_of_step rfl h]
      obtain hsame | ⟨hop, hpc, v, hpush⟩ := step_outLog_cases h
      · rw [← hsame, runLoop_succ_of_step h]
        refine (ih t).imp_right ?_
        rintro ⟨k, v, hk, hloop, hfirst⟩
        exact ⟨k + 1, v, Nat.succ_lt_succ hk, hloop.trans (runLoop_succ_of_step h _).symm, hfirst.of_step h hsame⟩
      · have hrun1 : runLoop 1 s = t := runLoop_succ_of_step h 0
        have hlen : t.outLog.length ≠ s.outLog.length := by simp [hpush]
        refine .inr ⟨0, v, Nat.succ_pos n, (outputLoop_of_length_ne hlen n).trans hrun1.symm, ?_⟩
        exact ⟨fun j hj => by rw [Nat.le_zero.1 hj]; rfl, hrun1.symm ▸ h, hop, hrun1.symm ▸ hpc, hrun1.symm ▸ hpush⟩
    · rw [outputLoop_of_ended hrun, runLoop_of_ended hrun]
      exact .inl ⟨rfl, rfl⟩

/-- A run to output keeps what every step keeps. -/
theorem outputLoop_keeps {P : State → Prop} (hstep : ∀ s t, P s → step s = .next t → P t) (n : Nat) (hs : P s) :
    P (outputLoop s.outLog.length n s) := by
  obtain ⟨hloop, -⟩ | ⟨k, v, -, hloop, -⟩ := outputLoop_cases n s <;> rw [hloop]
  · exact runLoop_keeps hstep n hs
  · exact runLoop_keeps hstep (k + 1) hs

/-! The ends of the host's operations. -/

theorem whenRunning_next_iff {u : State} : whenRunning s u = .next t ↔ s.runState = .running ∧ u = t := by
  cases hs : s.runState <;> simp [whenRunning, hs]

theorem whenRunning_of_ended (h : s.runState ≠ .running) (u : State) : ∃ r, whenRunning s u = .refused r := by
  cases hs : s.runState with
  | running => exact absurd hs h
  | halted p => exact ⟨.machineHalted p, by simp [whenRunning, hs]⟩
  | faulted c => exact ⟨.machineFaulted c, by simp [whenRunning, hs]⟩

/-- A retry changes `run_state` alone (R199). -/
theorem retry_next (h : retry s = .next t) : t = { s with runState := .running } := by
  unfold retry at h
  split at h
  · cases h; rfl
  · exact nomatch h

theorem retry_of_outOfInput {p : Int} (h : s.runState = .faulted (.outOfInputError p)) :
    retry s = .next { s with runState := .running } := by
  simp [retry, h]

theorem replyWith_done {o : Host.Outcome State Fault Refusal} {f : State → HostReply} {r : HostReply}
    (h : replyWith o f = .done t r) : o = .next t := by
  cases o with
  | next u => cases h; rfl
  | fault c => exact nomatch c
  | refused why => exact nomatch h

/-! Retry. -/

theorem exec_input_of_dest {i : Instr} {d : Dest} (hi : i.op = .input) (hd : destOf i = some d) (s : State) :
    exec i s = execInput d s := by
  cases i with
  | input => cases hd; rfl
  | add | mul | output | jumpIfTrue | jumpIfFalse | lessThan | equals | adjustBase | halt => exact nomatch hi

/-- An empty source is met by a fetched `input` only, after its destination has been checked (R224, D8). -/
theorem step_outOfInput {p : Int} (h : step s = .next t) (ht : t.runState = .faulted (.outOfInputError p)) :
    p = s.pc ∧ s.inQueue = [] ∧ ∃ i d, fetchInstr s = .ok i ∧ i.op = .input ∧ destOf i = some d ∧ writable s d := by
  obtain hf | ⟨i, hi, hr⟩ := step_fault_source h ht
  · obtain ⟨-, hc⟩ | ⟨_, hc, -⟩ | ⟨_, _, hc⟩ | ⟨_, _, _, hc⟩ := fetchInstr_error hf <;> exact nomatch hc
  · obtain ⟨hc, -⟩ | ⟨_, hc, -⟩ | ⟨_, hc, -⟩ | ⟨hc, hop, hq, d, hd, hw⟩ := hr.kinds <;> cases hc
    exact ⟨rfl, hq, i, d, hi, hop, hd, hw⟩

theorem fetchInstr_supplyInput (s : State) (vs : List Int) : fetchInstr (supplyInput s vs) = fetchInstr s :=
  fetchInstr_withChannels (n := s.initLen) (log := s.outLog) (q := s.inQueue ++ vs)

/-! The statements. -/

/-- Settles O52: the restored machine differs from the checkpointed one in the sink, which no step sees. -/
theorem restoredMachineRunsIdentically : Obligations.RestoredMachineRunsIdentically := by
  intro s u n hrun hq hp
  rw [restore_checkpoint hrun hq hp]
  exact runLoop_withSink n s u.outLog

/-- Settles O53: a restore writes everything but the channels and the parameters, and a run keeps these. -/
theorem restoreIsRepeatable : Obligations.RestoreIsRepeatable := by
  intro s u n
  have hp := runLoop_params n (restore u (checkpoint s))
  generalize runLoop n (restore u (checkpoint s)) = t at hp ⊢
  simp only [restore] at hp ⊢
  rw [hp]

/-- Settles O54: the fault and the retry change `run_state` forth and back, and the poll then finds the value. -/
theorem retryRepeatsTheInput : Obligations.RetryRepeatsTheInput := by
  intro s t p v h ht hpc
  obtain ⟨hrun, -⟩ := step_cases h
  obtain ⟨rfl, hq, i, d, hf, hop, hd, hw⟩ := step_outOfInput h ht
  obtain rfl := step_faulted h ht
  refine ⟨rfl, ?_, i, d, destAddress s d, hf, hd, writeAddr_ok hw, ?_⟩
  · rw [retry_of_outOfInput rfl, ← hrun]
    rfl
  · have hqueue : (supplyInput s [v]).inQueue = v :: [] := by simp [hq]
    have hrun' : (supplyInput s [v]).runState = .running := hrun
    rw [step_of_fetch hrun' ((fetchInstr_supplyInput s [v]).trans hf), exec_input_of_dest hop hd,
      execInput_completes (s := supplyInput s [v]) hw hqueue hpc, ← hq]
    rfl

/-- Settles O56: an ended machine has no step, so more fuel is not used, and a run of it is refused. -/
theorem completedRunNeedsNoMoreFuel : Obligations.CompletedRunNeedsNoMoreFuel := by
  intro s t n k h ht
  obtain ⟨hrun, rfl⟩ := whenRunning_next_iff.1 h
  refine ⟨whenRunning_next_iff.2 ⟨hrun, ?_⟩, fun m => whenRunning_of_ended ht _⟩
  rw [runLoop_add, runLoop_of_ended ht]

/-- Settles O57: the loop stops at the first push, or runs as long as the fuel lasts. -/
theorem runToOutputPushesAtMostOne : Obligations.RunToOutputPushesAtMostOne := by
  intro s t n h
  obtain ⟨-, rfl⟩ := whenRunning_next_iff.1 h
  obtain ⟨hloop, hsame⟩ | ⟨k, v, hk, hloop, hfirst⟩ := outputLoop_cases n s <;> rw [hloop]
  · exact .inl ⟨rfl, hsame, by simp [valuePushed, hsame]⟩
  · obtain ⟨silent, step_eq, opcode, pc, pushed⟩ := hfirst
    exact .inr ⟨k, v, hk, rfl, silent, step_eq, opcode, pc, pushed, by simp [valuePushed, pushed]⟩

/-- Settles O58: an operation loads a program, restores a canonical snapshot, steps, or leaves memory alone. -/
theorem hostMovesKeepCanonicalMemory : Obligations.HostMovesKeepCanonicalMemory := by
  intro op s t r hs hsnap h
  have hstep : ∀ s t, canonicalMemory s → step s = .next t → canonicalMemory t := fun _ _ => step_keeps_canonical
  cases op with
  | load prog input => cases h; exact Memory.ofProgram_wf prog
  | supply | readOutput | readState | checkpoint => cases h; exact hs
  | singleStep => exact step_keeps_canonical hs (replyWith_done h)
  | runToCompletion fuel =>
    obtain ⟨-, rfl⟩ := whenRunning_next_iff.1 (replyWith_done h)
    exact runLoop_keeps hstep fuel hs
  | runToOutput fuel =>
    obtain ⟨-, rfl⟩ := whenRunning_next_iff.1 (replyWith_done h)
    exact outputLoop_keeps hstep fuel hs
  | restore snap => cases h; exact hsnap snap rfl
  | retry =>
    rw [retry_next (replyWith_done h)]
    exact hs
  | discard => exact nomatch h

end Sys2Proof.Machine
